-- ==== Sys2Proof/Word.lean ====
section
/-! DEFINITION. The widths of the block's data: bytes of the stream, instruction words, and the text of ROM names. -/

namespace Sys2Proof

/-- One byte of the input stream (R50), and a register code (R31). -/
abbrev Byte := BitVec 8

/-- One instruction word (R60): bit 0 is its least significant bit (R8). -/
abbrev Word := BitVec 16

/-- A ROM name or an operation's name: a sequence of ASCII characters (R23). -/
abbrev Name := List Char

end Sys2Proof
end

