-- ==== Sys2Proof/Syntax.lean ====
section
/-! DEFINITION. The operand types, the variants and the closed instruction type of the decoder (10_state R26 to R29),
one constructor of `Instr` for each row of spec/opcode_table.json. -/

namespace Sys2Proof

/-- The destination selector (R27). -/
inductive Dest where
  | accumulator
  | memoryOperand
deriving DecidableEq, Repr

/-- A register reference in its direct (8-bit) or extended (9-bit) form (R28). -/
inductive RegRef where
  | direct (c : BitVec 8)
  | extended (e : BitVec 9)
deriving DecidableEq, Repr

/-- The three label widths (R29, R62). -/
inductive LabelWidth where
  | w8
  | w10
  | w12
deriving DecidableEq, Repr

/-- A label, a raw target word address, at one of its three widths (R29; DESIGN CHOICE, log entry 15). -/
inductive Label where
  | label8 (v : BitVec 8)
  | label10 (v : BitVec 10)
  | label12 (v : BitVec 12)
deriving DecidableEq, Repr

/-- The shape of a recipe: which operand fields it slices (R64 to R69, R71, R72). The source's width 7 has no recipe (R62). -/
inductive Format where
  | none
  | sleep2
  | sreg8
  | sreg9
  | bitidx
  | route
  | imm8
  | label (n : LabelWidth)
deriving DecidableEq, Repr

/-- The operand values of one instruction, one constructor for each recipe shape. -/
inductive Operands where
  | none
  | level (k : BitVec 2)
  | direct (f : BitVec 8) (d : Dest)
  | extended (e : BitVec 9) (d : Dest)
  | bit (f : BitVec 8) (b : BitVec 3)
  | route (sel : BitVec 2) (idx : BitVec 3)
  | imm (k : BitVec 8)
  | label (l : Label)
deriving DecidableEq, Repr

/-- The immediate-byte operations of `IMM_OPS`: the two the source names, and any other by its name (R180). -/
inductive ImmOp where
  | moveImmToP1
  | moveImmToP2
  | other (op : Name)
deriving DecidableEq, Repr

/-- The four control-transfer instructions (R190). -/
inductive Ct where
  | ct0
  | ct1
  | ct2
  | ct3
deriving DecidableEq, Repr

/-- Which variant an instruction is, without its operands (R11, R26). -/
inductive Variant where
  | nop
  | clearWatchDog
  | sleep
  | waitB
  | pushAll
  | popAll
  | ctrl (op : Name)
  | sreg (op : Name)
  | bitClear
  | bitSet
  | bitTest
  | bitOut1
  | bitOut2
  | bitIn1
  | bitIn2
  | imm (op : ImmOp)
  | ct (j : Ct)
  | unknown
deriving DecidableEq, Repr

/-- The instructions of spec/opcode_table.json, one constructor for each row (R26). -/
inductive Instr where
  /-- R120. -/
  | nop
  /-- R121. -/
  | clearWatchDog
  /-- R122. -/
  | sleep (k : BitVec 2)
  /-- R124: the operands that `WAITB_FORMAT` gives it. -/
  | waitB (o : Operands)
  /-- R125. -/
  | pushAll
  /-- R125. -/
  | popAll
  /-- R126: an operation of `CTRL_OPS`. -/
  | ctrl (op : Name)
  /-- R142: an operation of `SREG_OPS` in its direct form. -/
  | sregDirect (op : Name) (f : BitVec 8) (d : Dest)
  /-- R143: an operation of `SREG_OPS` in its extended form. -/
  | sregExtended (op : Name) (e : BitVec 9) (d : Dest)
  /-- R161. -/
  | bitClear (f : BitVec 8) (b : BitVec 3)
  /-- R162. -/
  | bitSet (f : BitVec 8) (b : BitVec 3)
  /-- R163. -/
  | bitTest (f : BitVec 8) (b : BitVec 3)
  /-- R171. -/
  | bitOut1 (sel : BitVec 2) (idx : BitVec 3)
  /-- R172. -/
  | bitOut2 (sel : BitVec 2) (idx : BitVec 3)
  /-- R173. -/
  | bitIn1 (sel : BitVec 2) (idx : BitVec 3)
  /-- R174. -/
  | bitIn2 (sel : BitVec 2) (idx : BitVec 3)
  /-- R181: an operation of `IMM_OPS` other than the two below. -/
  | imm (op : Name) (k : BitVec 8)
  /-- R182. -/
  | moveImmToP1 (k : BitVec 8)
  /-- R184. -/
  | moveImmToP2 (k : BitVec 8)
  /-- R195. -/
  | ct0 (l : Label)
  /-- R196. -/
  | ct1 (l : Label)
  /-- R197. -/
  | ct2 (l : Label)
  /-- R198. -/
  | ct3 (l : Label)
  /-- R185: a mnemonic that the source binds to no variant. -/
  | movl
  /-- R103: what a consumer may put in place of `NoMatch(word)`. -/
  | unknown (word : Word)
deriving DecidableEq, Repr

/-- The decoder's output (R21): a decoded instruction, or the verdict that carries the whole unmatched word. -/
inductive DecodeOut where
  | ok (i : Instr)
  | noMatch (w : Word)
deriving DecidableEq, Repr

end Sys2Proof
end

