-- ==== Sys2Proof/Config.lean ====
section
/-! DEFINITION. The configuration parameters of the block (00_scope R7), as plain data: the decode rows, the family
parameters and the ROM's contents. `Sys2Proof/Decode.lean` checks them (R243) and holds the admitted ones as `Config`. -/

namespace Sys2Proof

/-- The no-operand variants that a `NONE` row may name (R64). -/
inductive Plain where
  | nop
  | clearWatchDog
  | pushAll
  | popAll
  | ctrl (op : Name)
deriving DecidableEq, Repr

/-- The bit-indexed variants (R160). -/
inductive BitVariant where
  | bitClear
  | bitSet
  | bitTest
deriving DecidableEq, Repr

/-- The bit-routing variants (R170). -/
inductive RouteVariant where
  | bitOut1
  | bitOut2
  | bitIn1
  | bitIn2
deriving DecidableEq, Repr

/-- The builder of a row: the fields it slices and the variant it names (R64 to R69, R71, R72, R124). -/
inductive Recipe where
  | none (v : Plain)
  | sleep2
  | sreg8 (op : Name)
  | sreg9 (op : Name)
  | bitidx (v : BitVariant)
  | route (v : RouteVariant)
  | imm8 (op : ImmOp)
  | label (n : LabelWidth) (j : Ct)
  | waitB (fmt : Format)
deriving DecidableEq, Repr

/-- One row of `RULES` (R70); `expected` is the row's match value. -/
structure Row where
  mask     : Word
  expected : Word
  recipe   : Recipe
deriving DecidableEq, Repr

/-- A mask and its match value, the part of a row that a parameter gives. -/
structure Pattern where
  mask     : Word
  expected : Word
deriving DecidableEq, Repr

/-- The form of a single-register operation (R140). -/
inductive SRegForm where
  | form8
  | form9
deriving DecidableEq, Repr

/-- One entry of `SREG_OPS` (R140). -/
structure SRegOp where
  name    : Name
  pattern : Pattern
  form    : SRegForm
deriving DecidableEq, Repr

/-- One entry of `CTRL_OPS` (R126). -/
structure CtrlOp where
  name    : Name
  pattern : Pattern
deriving DecidableEq, Repr

/-- One operation of `IMM_OPS` with its opcode byte `IMM_OPC[op]` (R180). -/
structure ImmEntry where
  op   : ImmOp
  byte : Byte
deriving DecidableEq, Repr

/-- `IMM_P_FIRST`: which of the two shared-byte rows stands earlier (R183). -/
inductive PFirst where
  | p1
  | p2
deriving DecidableEq, Repr

/-- `BIT_OPC`: the 5-bit class prefixes of the bit-indexed variants (R160). -/
structure BitOpc where
  bitClear : BitVec 5
  bitSet   : BitVec 5
  bitTest  : BitVec 5
deriving DecidableEq, Repr

/-- `ROUTE_CLASS`: the 3-bit classes of the bit-routing variants (R170). -/
structure RouteClass where
  bitOut1 : BitVec 3
  bitOut2 : BitVec 3
  bitIn1  : BitVec 3
  bitIn2  : BitVec 3
deriving DecidableEq, Repr

/-- `CT_WIDTH[j]` with `CT_PREFIX[j]` (R190, R191). -/
structure CtEntry where
  width   : LabelWidth
  pattern : Pattern
deriving DecidableEq, Repr

/-- The named special-function registers of the enumeration (R30): `ctrlRW` when `CTRL_RW_COUNT` is 1, `ctrlRd` and
`ctrlWr` when it is 2. -/
inductive NamedSfr where
  | programCounter
  | status
  | indirPort1
  | indirPort2
  | indirAddr1
  | indirAddr2
  | timer1
  | timer2
  | timer3
  | bitCycle
  | bitConfig
  | portDir
  | portIO
  | sysConfig
  | ctrlRW
  | ctrlRd
  | ctrlWr
  | dataExch
deriving DecidableEq, Repr

/-- A register identity (R30). -/
inductive Identity where
  | error
  | data (n : Fin 32)
  | named (s : NamedSfr)
deriving DecidableEq, Repr

/-- `CTRL_RW_COUNT`: one or two control read/write identities (R30). -/
inductive CtrlRwCount where
  | one
  | two
deriving DecidableEq, Repr

/-- The parameters of 00_scope R7 whose value is OPEN. `tail` is what follows the three head rows in `RULES`
(R75), in list order. -/
structure Params where
  tail        : List Row
  destBit     : Nat
  sregOps     : List SRegOp
  bitOpc      : BitOpc
  routeClass  : RouteClass
  immOps      : List ImmEntry
  immPFirst   : PFirst
  ct0         : CtEntry
  ct1         : CtEntry
  ct2         : CtEntry
  ct3         : CtEntry
  ctrlOps     : List CtrlOp
  waitbFormat : Format
  waitbRows   : List Pattern
  pushAll     : Pattern
  popAll      : Pattern
  sfrLow      : List (Option NamedSfr)
  ctrlRwCount : CtrlRwCount
  shortNames  : List (NamedSfr × Name)
  vendorNames : List (NamedSfr × Name)
  errorShort  : Name
  errorVendor : Name
deriving DecidableEq, Repr

end Sys2Proof
end

