-- ==== Sys2Proof/Machine/Ex1.lean ====
section
/-! DEFINITION. The illustrative configuration EX1 of 95_test_vectors section 2. It is NOT the hardware's table: it only
shows that an admitted configuration exists, and it is the witness of the model's tests. The spec gives EX1 no names for
most named identities and no vendor name for the status register; those below are the model's own (log entry 10). -/

namespace Sys2Proof

def Params.ex1Tail : List Row :=
  [⟨0xFFFF, 0x0010, .none .pushAll⟩, ⟨0xFFFF, 0x0011, .none .popAll⟩, ⟨0xFFFF, 0x0012, .waitB .none⟩,
    ⟨0xFFFF, 0x00E7, .none (.ctrl ['C', 't', 'r', 'l', 'Q'])⟩]
  ++ [⟨0xFFE0, 0x0080, .route .bitOut1⟩, ⟨0xFFE0, 0x00A0, .route .bitOut2⟩, ⟨0xFFE0, 0x00C0, .route .bitIn1⟩,
    ⟨0xFFE0, 0x00E0, .route .bitIn2⟩]
  ++ [⟨0xFC00, 0x1C00, .sreg8 ['O', 'p', 'A']⟩, ⟨0xFC00, 0x2000, .sreg9 ['O', 'p', 'B']⟩]
  ++ [⟨0xF800, 0x5000, .bitidx .bitClear⟩, ⟨0xF800, 0x5800, .bitidx .bitSet⟩, ⟨0xF800, 0x6000, .bitidx .bitTest⟩]
  ++ [⟨0xFF00, 0x4A00, .imm8 .moveImmToP1⟩, ⟨0xFF00, 0x4A00, .imm8 .moveImmToP2⟩,
    ⟨0xFF00, 0x4B00, .imm8 (.other ['I', 'm', 'm', 'X'])⟩, ⟨0xFF00, 0x6100, .imm8 (.other ['I', 'm', 'm', 'Y'])⟩]
  ++ [⟨0xF000, 0x8000, .label .w12 .ct0⟩, ⟨0xF000, 0x9000, .label .w12 .ct1⟩, ⟨0xFC00, 0x7000, .label .w10 .ct2⟩,
    ⟨0xFE00, 0x7400, .label .w8 .ct3⟩]

def Params.ex1SfrLow : List (Option NamedSfr) :=
  [some .programCounter, some .status, some .indirPort1, some .indirPort2, some .indirAddr1, some .indirAddr2,
    some .timer1, some .timer2, some .timer3, some .bitCycle, some .bitConfig, some .portDir, some .portIO,
    some .sysConfig, some .ctrlRd, some .ctrlWr, some .dataExch]
  ++ List.replicate 15 none

def Params.ex1Names : List (NamedSfr × Name) :=
  [(.status, ['V', 'S']), (.indirPort1, ['I', 'P', '1']), (.indirPort2, ['I', 'P', '2']), (.indirAddr1, ['I', 'A', '1']),
    (.indirAddr2, ['I', 'A', '2']), (.timer1, ['T', '1']), (.timer2, ['T', '2']), (.timer3, ['T', '3'])]
  ++ [(.bitCycle, ['B', 'Y']), (.bitConfig, ['B', 'F']), (.portDir, ['P', 'D']), (.portIO, ['P', 'I']),
    (.sysConfig, ['S', 'C']), (.ctrlRd, ['C', 'R']), (.ctrlWr, ['C', 'W']), (.dataExch, ['D', 'X'])]

def Params.ex1 : Params where
  tail := Params.ex1Tail
  destBit := 9
  sregOps := [⟨['O', 'p', 'A'], ⟨0xFC00, 0x1C00⟩, .form8⟩, ⟨['O', 'p', 'B'], ⟨0xFC00, 0x2000⟩, .form9⟩]
  bitOpc := ⟨0b01010, 0b01011, 0b01100⟩
  routeClass := ⟨0b100, 0b101, 0b110, 0b111⟩
  immOps := [⟨.moveImmToP1, 0x4A⟩, ⟨.moveImmToP2, 0x4A⟩, ⟨.other ['I', 'm', 'm', 'X'], 0x4B⟩,
    ⟨.other ['I', 'm', 'm', 'Y'], 0x61⟩]
  immPFirst := .p1
  ct0 := ⟨.w12, ⟨0xF000, 0x8000⟩⟩
  ct1 := ⟨.w12, ⟨0xF000, 0x9000⟩⟩
  ct2 := ⟨.w10, ⟨0xFC00, 0x7000⟩⟩
  ct3 := ⟨.w8, ⟨0xFE00, 0x7400⟩⟩
  ctrlOps := [⟨['C', 't', 'r', 'l', 'Q'], ⟨0xFFFF, 0x00E7⟩⟩]
  waitbFormat := .none
  waitbRows := [⟨0xFFFF, 0x0012⟩]
  pushAll := ⟨0xFFFF, 0x0010⟩
  popAll := ⟨0xFFFF, 0x0011⟩
  sfrLow := Params.ex1SfrLow
  ctrlRwCount := .two
  shortNames := Params.ex1Names
  vendorNames := Params.ex1Names
  errorShort := ['?', 'E', 'R', 'R']
  errorVendor := ['S', 'F', 'R', '_', 'E', 'R', 'R', 'O', 'R']

end Sys2Proof
end

