-- ==== Sys2Proof/Machine/FrontEnd.lean ====
section
/-! DEFINITION. The word-assembly front end: bytes to little-endian words and the odd flag (20_memory R50 to R54). -/

namespace Sys2Proof

/-- `{hi, lo}`: the byte at the lower stream offset is the low byte of the word (R51). -/
def assemble (lo hi : Byte) : Word :=
  hi ++ lo

/-- `W[i]`, the word at word address `i` of a stream (R51, R53); none at and past `L div 2`. -/
def wordAt (bytes : List Byte) (i : Nat) : Option Word :=
  match bytes[2 * i]?, bytes[2 * i + 1]? with
  | some lo, some hi => some (assemble lo hi)
  | some _, none => none
  | none, _ => none

/-- Every complete word of a stream, in stream order (R52, R56). -/
def words : List Byte → List Word
  | lo :: hi :: rest => assemble lo hi :: words rest
  | [_] => []
  | [] => []

/-- The odd flag: set when the stream's length is odd (R52). -/
def oddFlag (bytes : List Byte) : Bool :=
  bytes.length % 2 == 1

/-- A word as the two bytes a stream holds for it (R51). -/
def wordBytes (w : Word) : List Byte :=
  [w.setWidth 8, (w >>> 8).setWidth 8]

/-- A stream that holds `w` at word address `i` and is otherwise as before; a stream that ends before that address is
first filled up with zero bytes. -/
def putWord (bytes : List Byte) (i : Nat) (w : Word) : List Byte :=
  (bytes ++ List.replicate (2 * i - bytes.length) 0).take (2 * i) ++ wordBytes w ++ bytes.drop (2 * i + 2)

end Sys2Proof
end

