-- ==== Sys2Proof/WellFormed.lean ====
section
/-! DEFINITION. When an `Instr` is a value of the configuration's instruction type (10_state R26): its operation is one
the configuration has, and its operands have the configuration's widths. -/

namespace Sys2Proof

/-- The width of a label. -/
def Label.width : Label → LabelWidth
  | .label8 _ => .w8
  | .label10 _ => .w10
  | .label12 _ => .w12

/-- The recipe shape that carries these operands. -/
def Operands.format : Operands → Format
  | .none => .none
  | .level _ => .sleep2
  | .direct _ _ => .sreg8
  | .extended _ _ => .sreg9
  | .bit _ _ => .bitidx
  | .route _ _ => .route
  | .imm _ => .imm8
  | .label l => .label l.width

/-- The instruction is a value of `Instr` under the configuration (R26). `movl` never is: it names no variant (R185).
`unknown` is (R26), although the decoder never emits it (R103). A single-register operation is counted in the forms alone
in which `SREG_OPS` has an entry for it (DESIGN CHOICE, log entry 26). -/
def Instr.wellFormed (p : Params) : Instr → Bool
  | .nop => true
  | .clearWatchDog => true
  | .sleep _ => true
  | .waitB o => o.format == p.waitbFormat
  | .pushAll => true
  | .popAll => true
  | .ctrl op => p.ctrlOps.any fun e => e.name == op
  | .sregDirect op _ _ => p.sregOps.any fun e => e.name == op && e.form == .form8
  | .sregExtended op _ _ => p.sregOps.any fun e => e.name == op && e.form == .form9
  | .bitClear _ _ => true
  | .bitSet _ _ => true
  | .bitTest _ _ => true
  | .bitOut1 _ _ => true
  | .bitOut2 _ _ => true
  | .bitIn1 _ _ => true
  | .bitIn2 _ _ => true
  | .imm op _ => p.immOps.any fun e => e.op == .other op
  | .moveImmToP1 _ => true
  | .moveImmToP2 _ => true
  | .ct0 l => l.width == p.ct0.width
  | .ct1 l => l.width == p.ct1.width
  | .ct2 l => l.width == p.ct2.width
  | .ct3 l => l.width == p.ct3.width
  | .movl => false
  | .unknown _ => true

end Sys2Proof
end

