-- ==== Sys2Proof/Machine/Operands.lean ====
section
/-! DEFINITION. Bit-field values, the operand types' own operations, and where each operand stands in a word
(30_encoding R61 to R74, 10_state R27 to R29). -/

namespace Sys2Proof

/-- `Field_N(raw)`: the truncating constructor (R61). -/
def field (n raw : Nat) : BitVec n :=
  BitVec.ofNat n raw

/-- `new_N(raw)`: the validating constructor (R61). The decoder never uses it. -/
def newField (n raw : Nat) : Option (BitVec n) :=
  if raw < 2 ^ n then some (field n raw) else none

/-- `w[lo+n-1 : lo]` (R8), through the truncating constructor (R61). -/
def slice (lo n : Nat) (w : Word) : BitVec n :=
  field n (w.toNat >>> lo)

/-- The selector that a bit encodes: 0 is the accumulator, 1 the memory operand (R27). -/
def Dest.fromBit (b : Bool) : Dest :=
  if b then .memoryOperand else .accumulator

/-- The bit that encodes a selector (R27). -/
def Dest.toBit : Dest → Bool
  | .accumulator => false
  | .memoryOperand => true

/-- The normalised 8-bit code of a register reference (R28). -/
def RegRef.norm : RegRef → BitVec 8
  | .direct c => c
  | .extended e => e.setWidth 8

/-- How many bits a label width stands for (R29). -/
def LabelWidth.bits : LabelWidth → Nat
  | .w8 => 8
  | .w10 => 10
  | .w12 => 12

/-- The flat port code of a label width (R22). -/
def LabelWidth.code : LabelWidth → BitVec 2
  | .w8 => 0
  | .w10 => 1
  | .w12 => 2

/-- A label's value, zero-extended to 12 bits (R22). -/
def Label.zext : Label → BitVec 12
  | .label8 v => v.setWidth 12
  | .label10 v => v.setWidth 12
  | .label12 v => v

/-- A label's value: an absolute word address (R192, decision D14). -/
def Label.value (l : Label) : Nat :=
  l.zext.toNat

/-- `n` in decimal without leading zeros (R32, R194). -/
def decimal (n : Nat) : Name :=
  Nat.toDigits 10 n

/-- A label's reference spelling (R194). -/
def Label.text (l : Label) : Name :=
  '.' :: 'L' :: decimal l.value

/-- The label of a word at a width: its low `N` bits (R72). -/
def LabelWidth.extract (n : LabelWidth) (w : Word) : Label :=
  match n with
  | .w8 => .label8 (slice 0 8 w)
  | .w10 => .label10 (slice 0 10 w)
  | .w12 => .label12 (slice 0 12 w)

/-- The destination selector of a word (R66, R67). -/
def destOf (destBit : Nat) (w : Word) : Dest :=
  .fromBit (w.getLsbD destBit)

/-- The operand fields that a recipe of this shape slices from a word (R64 to R69, R71, R72). -/
def Format.extract (destBit : Nat) (w : Word) : Format → Operands
  | .none => .none
  | .sleep2 => .level (slice 0 2 w)
  | .sreg8 => .direct (slice 0 8 w) (destOf destBit w)
  | .sreg9 => .extended (slice 0 9 w) (destOf destBit w)
  | .bitidx => .bit (slice 0 8 w) (slice 8 3 w)
  | .route => .route (slice 3 2 w) (slice 0 3 w)
  | .imm8 => .imm (slice 0 8 w)
  | .label n => .label (n.extract w)

/-- The bits a recipe of this shape reads as operands (R74). -/
def Format.operandMask (destBit : Nat) : Format → Word
  | .none => 0x0000
  | .sleep2 => 0x0003
  | .sreg8 => 0x00FF ||| .twoPow 16 destBit
  | .sreg9 => 0x01FF ||| .twoPow 16 destBit
  | .bitidx => 0x07FF
  | .route => 0x001F
  | .imm8 => 0x00FF
  | .label .w8 => 0x00FF
  | .label .w10 => 0x03FF
  | .label .w12 => 0x0FFF

/-- The selector's bit at its position in a word, every other bit 0. -/
def Dest.place (destBit : Nat) (d : Dest) : Word :=
  if d.toBit then .twoPow 16 destBit else 0

/-- The operand values at their positions in a word, every other bit 0 (the encoding direction of R64 to R72). -/
def Operands.place (destBit : Nat) : Operands → Word
  | .none => 0
  | .level k => k.setWidth 16
  | .direct f d => f.setWidth 16 ||| d.place destBit
  | .extended e d => e.setWidth 16 ||| d.place destBit
  | .bit f b => f.setWidth 16 ||| b.setWidth 16 <<< 8
  | .route sel idx => idx.setWidth 16 ||| sel.setWidth 16 <<< 3
  | .imm k => k.setWidth 16
  | .label l => l.zext.setWidth 16

/-- Every value of a bit-field. -/
def allFields (n : Nat) : List (BitVec n) :=
  (List.finRange (2 ^ n)).map BitVec.ofFin

/-- Every operand value of a shape (the in-range operand values of R78). -/
def Format.allOperands : Format → List Operands
  | .none => [.none]
  | .sleep2 => (allFields 2).map .level
  | .sreg8 => (allFields 8).flatMap fun f => [.direct f .accumulator, .direct f .memoryOperand]
  | .sreg9 => (allFields 9).flatMap fun e => [.extended e .accumulator, .extended e .memoryOperand]
  | .bitidx => (allFields 8).flatMap fun f => (allFields 3).map fun b => .bit f b
  | .route => (allFields 2).flatMap fun sel => (allFields 3).map fun idx => .route sel idx
  | .imm8 => (allFields 8).map .imm
  | .label .w8 => (allFields 8).map fun v => .label (.label8 v)
  | .label .w10 => (allFields 10).map fun v => .label (.label10 v)
  | .label .w12 => (allFields 12).map fun v => .label (.label12 v)

/-- An instruction's variant (R26); `movl` has none (R185). -/
def Instr.variant : Instr → Option Variant
  | .nop => some .nop
  | .clearWatchDog => some .clearWatchDog
  | .sleep _ => some .sleep
  | .waitB _ => some .waitB
  | .pushAll => some .pushAll
  | .popAll => some .popAll
  | .ctrl op => some (.ctrl op)
  | .sregDirect op _ _ => some (.sreg op)
  | .sregExtended op _ _ => some (.sreg op)
  | .bitClear _ _ => some .bitClear
  | .bitSet _ _ => some .bitSet
  | .bitTest _ _ => some .bitTest
  | .bitOut1 _ _ => some .bitOut1
  | .bitOut2 _ _ => some .bitOut2
  | .bitIn1 _ _ => some .bitIn1
  | .bitIn2 _ _ => some .bitIn2
  | .imm op _ => some (.imm (.other op))
  | .moveImmToP1 _ => some (.imm .moveImmToP1)
  | .moveImmToP2 _ => some (.imm .moveImmToP2)
  | .ct0 _ => some (.ct .ct0)
  | .ct1 _ => some (.ct .ct1)
  | .ct2 _ => some (.ct .ct2)
  | .ct3 _ => some (.ct .ct3)
  | .movl => none
  | .unknown _ => some .unknown

/-- An instruction's operands in the shape of its recipe. `movl` and `unknown` come from no recipe and have none. -/
def Instr.operands : Instr → Operands
  | .nop => .none
  | .clearWatchDog => .none
  | .sleep k => .level k
  | .waitB o => o
  | .pushAll => .none
  | .popAll => .none
  | .ctrl _ => .none
  | .sregDirect _ f d => .direct f d
  | .sregExtended _ e d => .extended e d
  | .bitClear f b => .bit f b
  | .bitSet f b => .bit f b
  | .bitTest f b => .bit f b
  | .bitOut1 sel idx => .route sel idx
  | .bitOut2 sel idx => .route sel idx
  | .bitIn1 sel idx => .route sel idx
  | .bitIn2 sel idx => .route sel idx
  | .imm _ k => .imm k
  | .moveImmToP1 k => .imm k
  | .moveImmToP2 k => .imm k
  | .ct0 l => .label l
  | .ct1 l => .label l
  | .ct2 l => .label l
  | .ct3 l => .label l
  | .movl => .none
  | .unknown _ => .none

/-- The register reference that operands carry (R28). -/
def Operands.regRef : Operands → Option RegRef
  | .direct f _ => Option.some (.direct f)
  | .extended e _ => Option.some (.extended e)
  | .bit f _ => Option.some (.direct f)
  | .none => Option.none
  | .level _ => Option.none
  | .route _ _ => Option.none
  | .imm _ => Option.none
  | .label _ => Option.none

end Sys2Proof
end

