-- ==== Sys2Proof/Machine/Rom.lean ====
section
/-! DEFINITION. The register-name ROM: `resolve`, the two name columns and `parse_short` (10_state R30 to R34,
47_register_namespace R200 to R210). -/

namespace Sys2Proof

/-- The named identities before the control read/write ones, in the source's order (R30). -/
def firstSfrs : List NamedSfr :=
  [.programCounter, .status, .indirPort1, .indirPort2, .indirAddr1, .indirAddr2, .timer1, .timer2, .timer3,
    .bitCycle, .bitConfig, .portDir, .portIO, .sysConfig]

/-- The control read/write identities (R30). -/
def CtrlRwCount.identities : CtrlRwCount → List NamedSfr
  | .one => [.ctrlRW]
  | .two => [.ctrlRd, .ctrlWr]

/-- The named identities of the enumeration, in the source's order (R30). -/
def Params.namedSet (p : Params) : List NamedSfr :=
  firstSfrs ++ p.ctrlRwCount.identities ++ [NamedSfr.dataExch]

/-- The valid identities: every value of `Identity` but `Error` (R30). -/
def Params.validIdentities (p : Params) : List Identity :=
  (List.finRange 32).map .data ++ p.namedSet.map .named

/-- The identity is a value of the configuration's `Identity` type (R30). -/
def Params.hasIdentity (p : Params) : Identity → Bool
  | .error => true
  | .data _ => true
  | .named s => p.namedSet.contains s

/-- `SFR_LOW[c]` (R31). -/
def Params.sfrAt (p : Params) (c : Nat) : Option NamedSfr :=
  (p.sfrLow[c]?).join

/-- `resolve(code)` (R200). -/
def resolve (p : Params) (c : Byte) : Identity :=
  if h : 0x20 ≤ c.toNat ∧ c.toNat ≤ 0x3F then .data ⟨c.toNat - 0x20, by omega⟩
  else if c.toNat ≤ 0x1F then
    match p.sfrAt c.toNat with
    | some s => .named s
    | none => .error
  else .error

/-- The name in a column of the ROM. An admitted configuration has one for every named identity it has (R33). -/
def nameIn (column : List (NamedSfr × Name)) (s : NamedSfr) : Name :=
  (column.lookup s).getD []

/-- `render_short(id)` (R204). -/
def renderShort (p : Params) : Identity → Name
  | .data n => 'D' :: decimal n.val
  | .named .programCounter => ['P', 'C']
  | .named .status => ['S', 'R']
  | .named s => nameIn p.shortNames s
  | .error => p.errorShort

/-- `render_vendor(id)` (R205). -/
def renderVendor (p : Params) : Identity → Name
  | .data n => ['S', 'F', 'R', '_', 'D', 'A', 'T', 'A', '_', 'R', 'E', 'G'] ++ decimal n.val
  | .named .programCounter => ['S', 'F', 'R', '_', 'P', 'R', 'G', '_', 'C', 'O', 'U', 'N', 'T']
  | .named s => nameIn p.vendorNames s
  | .error => p.errorVendor

/-- An ASCII decimal digit. -/
def isDecimalDigit (c : Char) : Bool :=
  0x30 ≤ c.toNat && c.toNat ≤ 0x39

/-- The value of a sequence of decimal digits. -/
def digitsValue (ds : Name) : Nat :=
  ds.foldl (fun acc c => 10 * acc + (c.toNat - 0x30)) 0

/-- The digits of a name of the form `"D"` followed by one or more decimal digits (R33, R207). -/
def dataDigits : Name → Option Name
  | 'D' :: d :: ds => if (d :: ds).all isDecimalDigit then some (d :: ds) else none
  | _ => none

/-- The numeric-suffix path of `parse_short` (R207). -/
def parseData (name : Name) : Option Identity :=
  match dataDigits name with
  | some ds => if h : digitsValue ds < 32 then some (.data ⟨digitsValue ds, h⟩) else none
  | none => none

/-- `parse_short(name)` (R207): the exact names first, then the numeric path. -/
def parseShort (p : Params) (name : Name) : Option Identity :=
  match p.validIdentities.find? fun id => renderShort p id == name with
  | some id => some id
  | none => parseData name

/-- The identity of an instruction's register operand, if it has one (R210). A WaitB whose format is a register recipe
(R124) has one and is resolved like the others (DESIGN CHOICE, log entry 24). -/
def Instr.registerIdentity (p : Params) (i : Instr) : Option Identity :=
  i.operands.regRef.map fun f => resolve p f.norm

end Sys2Proof
end

