-- ==== Sys2Proof/Machine/Flags.lean ====
section
/-! DEFINITION. The block computes no status flag (R37, R127): its only flags are its verdicts, the three abnormal
outcomes of 60_exceptions R220, each an output value. -/

namespace Sys2Proof

/-- The verdicts by the spec's own codes (R220). -/
inductive Verdict where
  /-- V1: the word that no row matches. -/
  | noMatch (w : Word)
  /-- V2: a code that resolves to `Error`. -/
  | regError
  /-- V3: the stream's length is odd. -/
  | oddLength
deriving DecidableEq, Repr

/-- `nomatch`: 1 iff no rule matched (R22). -/
def DecodeOut.noMatchFlag : DecodeOut → Bool
  | .ok _ => false
  | .noMatch _ => true

/-- The verdict of one decode (R221). -/
def DecodeOut.verdict : DecodeOut → Option Verdict
  | .ok _ => none
  | .noMatch w => some (.noMatch w)

/-- The verdict of one lookup (R222). -/
def Identity.verdict : Identity → Option Verdict
  | .error => some .regError
  | .data _ => none
  | .named _ => none

/-- The verdict of one stream (R220, R224). -/
def streamVerdict (bytes : List Byte) : Option Verdict :=
  if oddFlag bytes then some .oddLength else none

end Sys2Proof
end

