-- ==== Sys2Proof/Decode.lean ====
section
/-! DEFINITION. The recipes, the rule table, the first-match engine (30_encoding, 40_decode_engine), the encoder written
from the same rows, the configuration checks of 70_reset_and_hazards R243, and the admitted configurations. -/

namespace Sys2Proof

/-- The instruction a `NONE` row emits (R64). -/
def Plain.instr : Plain → Instr
  | .nop => .nop
  | .clearWatchDog => .clearWatchDog
  | .pushAll => .pushAll
  | .popAll => .popAll
  | .ctrl op => .ctrl op

/-- A recipe applied to the word its row matched (R64 to R69, R71, R72, R124). -/
def Recipe.apply (destBit : Nat) (w : Word) : Recipe → Instr
  | .none v => v.instr
  | .sleep2 => .sleep (slice 0 2 w)
  | .sreg8 op => .sregDirect op (slice 0 8 w) (destOf destBit w)
  | .sreg9 op => .sregExtended op (slice 0 9 w) (destOf destBit w)
  | .bitidx .bitClear => .bitClear (slice 0 8 w) (slice 8 3 w)
  | .bitidx .bitSet => .bitSet (slice 0 8 w) (slice 8 3 w)
  | .bitidx .bitTest => .bitTest (slice 0 8 w) (slice 8 3 w)
  | .route .bitOut1 => .bitOut1 (slice 3 2 w) (slice 0 3 w)
  | .route .bitOut2 => .bitOut2 (slice 3 2 w) (slice 0 3 w)
  | .route .bitIn1 => .bitIn1 (slice 3 2 w) (slice 0 3 w)
  | .route .bitIn2 => .bitIn2 (slice 3 2 w) (slice 0 3 w)
  | .imm8 .moveImmToP1 => .moveImmToP1 (slice 0 8 w)
  | .imm8 .moveImmToP2 => .moveImmToP2 (slice 0 8 w)
  | .imm8 (.other op) => .imm op (slice 0 8 w)
  | .label n .ct0 => .ct0 (n.extract w)
  | .label n .ct1 => .ct1 (n.extract w)
  | .label n .ct2 => .ct2 (n.extract w)
  | .label n .ct3 => .ct3 (n.extract w)
  | .waitB fmt => .waitB (fmt.extract destBit w)

/-- The shape of a recipe. -/
def Recipe.format : Recipe → Format
  | .none _ => .none
  | .sleep2 => .sleep2
  | .sreg8 _ => .sreg8
  | .sreg9 _ => .sreg9
  | .bitidx _ => .bitidx
  | .route _ => .route
  | .imm8 _ => .imm8
  | .label n _ => .label n
  | .waitB fmt => fmt

/-- The variant a recipe names. -/
def Recipe.variant : Recipe → Variant
  | .none .nop => .nop
  | .none .clearWatchDog => .clearWatchDog
  | .none .pushAll => .pushAll
  | .none .popAll => .popAll
  | .none (.ctrl op) => .ctrl op
  | .sleep2 => .sleep
  | .sreg8 op => .sreg op
  | .sreg9 op => .sreg op
  | .bitidx .bitClear => .bitClear
  | .bitidx .bitSet => .bitSet
  | .bitidx .bitTest => .bitTest
  | .route .bitOut1 => .bitOut1
  | .route .bitOut2 => .bitOut2
  | .route .bitIn1 => .bitIn1
  | .route .bitIn2 => .bitIn2
  | .imm8 op => .imm op
  | .label _ j => .ct j
  | .waitB _ => .waitB

/-- The row matches the word (R70). -/
def Row.hits (r : Row) (w : Word) : Bool :=
  w &&& r.mask == r.expected

/-- The three fixed head rows (R75). -/
def headRows : List Row :=
  [⟨0xFFFF, 0x0000, .none .nop⟩, ⟨0xFFFF, 0x0008, .none .clearWatchDog⟩, ⟨0xFFFC, 0x000C, .sleep2⟩]

/-- `RULES` (R70, R75). -/
def Params.rules (p : Params) : List Row :=
  headRows ++ p.tail

/-- The first row of the list that matches the word decides (R100, R101); `NoMatch` where none does (R102). -/
def firstMatch (destBit : Nat) (w : Word) : List Row → DecodeOut
  | [] => .noMatch w
  | r :: rs => if r.hits w then .ok (r.recipe.apply destBit w) else firstMatch destBit w rs

/-- `decode(w)` (R100). -/
def decode (p : Params) (w : Word) : DecodeOut :=
  firstMatch p.destBit w p.rules

/-- The decoder on bytes: the first complete word of the stream, decoded; none where the stream holds no whole word
(R51, R52, R54). -/
def decodeBytes (p : Params) (bytes : List Byte) : Option DecodeOut :=
  (wordAt bytes 0).map (decode p)

/-- What a consumer reads: the decoded instruction, or `Unknown(w)` in place of `NoMatch(w)` (R103). -/
def DecodeOut.substituted : DecodeOut → Instr
  | .ok i => i
  | .noMatch w => .unknown w

/-! The encoder, from the same rows. -/

/-- The instruction is one that a row with this recipe emits. -/
def Recipe.emits (rc : Recipe) (i : Instr) : Bool :=
  i.variant == some rc.variant && i.operands.format == rc.format

/-- The row's word for an instruction: its match value with the operands in their places. -/
def Row.place (r : Row) (destBit : Nat) (i : Instr) : Option Word :=
  if r.recipe.emits i then some (r.expected ||| i.operands.place destBit) else none

/-- The bits of a row that are neither matched nor read as operands (R72: such bits are ignored). -/
def Row.ignored (r : Row) (destBit : Nat) : Word :=
  ~~~r.mask &&& ~~~r.recipe.format.operandMask destBit

/-- The first word that `good` accepts among those that differ from `w` by setting bits of `free` below bit `n`. -/
def searchFree (free : Word) (good : Word → Bool) : Nat → Word → Option Word
  | 0, w => if good w then some w else none
  | n + 1, w =>
    match searchFree free good n w with
    | some v => some v
    | none => if free.getLsbD n then searchFree free good n (w ||| .twoPow 16 n) else none

/-- The encoder over a list of rows: a word of the first row that emits the instruction and whose word no row before it
matches (R101). -/
def encodeFrom (destBit : Nat) (before : List Row) (i : Instr) : List Row → Option Word
  | [] => none
  | r :: rs =>
    match (r.place destBit i).bind
        (searchFree (r.ignored destBit) (fun w => before.all fun q => !q.hits w) 16) with
    | some w => some w
    | none => encodeFrom destBit (before ++ [r]) i rs

/-- A word that encodes the instruction under the configuration; none where no word does (shadowed variants, R83, and
instructions that no row emits). -/
def encode (p : Params) (i : Instr) : Option Word :=
  encodeFrom p.destBit [] i p.rules

/-! The configuration checks, in the order of R243. -/

/-- No value stands twice. -/
def distinct {α : Type} [BEq α] : List α → Bool
  | [] => true
  | x :: xs => !xs.contains x && distinct xs

/-- A non-empty sequence of ASCII characters (R23, R204, R205; the markers too: log entry 13). -/
def goodText (n : Name) : Bool :=
  !n.isEmpty && n.all fun c => c.toNat < 128

/-- `SFR_LOW` has its 32 entries, is injective on the present ones, and holds every named identity at exactly one
address (R31). -/
def Params.sfrLowOk (p : Params) : Bool :=
  p.sfrLow.length == 32
  && distinct (p.sfrLow.filterMap id)
  && p.namedSet.all (fun s => p.sfrLow.contains (some s))
  && (p.sfrLow.filterMap id).all (fun s => p.namedSet.contains s)

/-- The name parameters: present, ASCII, injective on valid identities, no short name of a named identity in the numeric
form, and error markers that are no valid name (R33, R34). `ERROR_SHORT` is a short name too, so it has not that form
either (decision D17), as R207's corner case of it needs (DEDUCED, log entry 25). Any other name is free, though it be
"D", "d0" or "pc" (DESIGN CHOICE, log entry 29). -/
def Params.namesOk (p : Params) : Bool :=
  (p.validIdentities.all fun id => goodText (renderShort p id) && goodText (renderVendor p id))
  && distinct (p.validIdentities.map (renderShort p))
  && distinct (p.validIdentities.map (renderVendor p))
  && (p.namedSet.all fun s => (dataDigits (renderShort p (.named s))).isNone)
  && goodText p.errorShort && goodText p.errorVendor
  && !(p.validIdentities.map (renderShort p)).contains p.errorShort
  && !(p.validIdentities.map (renderVendor p)).contains p.errorVendor
  && (dataDigits p.errorShort).isNone

/-- Check 1 of R243. -/
def Params.romOk (p : Params) : Bool :=
  p.sfrLowOk && p.namesOk

/-- The parameters use the 9-bit form (R67, R141). -/
def Params.usesSreg9 (p : Params) : Bool :=
  (p.sregOps.any fun e => e.form == .form9) || p.waitbFormat == .sreg9

/-- `DEST_BIT` (R141, R79 item 4). -/
def Params.destBitOk (p : Params) : Bool :=
  8 ≤ p.destBit && p.destBit ≤ 15 && (!p.usesSreg9 || 9 ≤ p.destBit)

/-- `IMM_OPC[op]` (R180). -/
def Params.immByte (p : Params) (op : ImmOp) : Option Byte :=
  (p.immOps.find? fun e => e.op == op).map (·.byte)

/-- `IMM_OPS` gives each operation one byte and holds the two named operations with equal bytes (R180; DEDUCED,
log entry 12). -/
def Params.immOpsOk (p : Params) : Bool :=
  distinct (p.immOps.map (·.op))
  && (p.immByte .moveImmToP1).isSome && p.immByte .moveImmToP1 == p.immByte .moveImmToP2

/-- A control-transfer row's mask is a run of 4, 6 or 7 ones at the top, clear in the label's bits (R191). -/
def CtEntry.maskOk (e : CtEntry) : Bool :=
  [0xF000, 0xFC00, 0xFE00].contains e.pattern.mask
  && e.pattern.mask &&& (Format.label e.width).operandMask 0 == 0

/-- `CT_WIDTH` and `CT_PREFIX` (R190, R191). -/
def Params.ctOk (p : Params) : Bool :=
  [p.ct0, p.ct1, p.ct2, p.ct3].all CtEntry.maskOk
  && [LabelWidth.w8, .w10, .w12].all fun n => [p.ct0.width, p.ct1.width, p.ct2.width, p.ct3.width].contains n

/-- Check 2 of R243 (R141, R160, R170, R180, R190, R191). How often an operation stands in `SREG_OPS` or `CTRL_OPS` is not
checked (DESIGN CHOICE, log entry 23), and neither is that a direct bit separates the two forms of one operation (R140; DESIGN
CHOICE, log entry 30). -/
def Params.familiesOk (p : Params) : Bool :=
  p.destBitOk
  && distinct [p.bitOpc.bitClear, p.bitOpc.bitSet, p.bitOpc.bitTest]
  && distinct [p.routeClass.bitOut1, p.routeClass.bitOut2, p.routeClass.bitIn1, p.routeClass.bitIn2]
  && p.immOpsOk && p.ctOk

/-- A pattern as a row. -/
def Pattern.row (a : Pattern) (rc : Recipe) : Row :=
  ⟨a.mask, a.expected, rc⟩

/-- A bit-indexed row (R160). -/
def bitRow (opc : BitVec 5) (v : BitVariant) : Row :=
  ⟨0xF800, opc.setWidth 16 <<< 11, .bitidx v⟩

/-- A bit-routing row (R170). -/
def routeRow (cls : BitVec 3) (v : RouteVariant) : Row :=
  ⟨0xFFE0, cls.setWidth 16 <<< 5, .route v⟩

/-- An immediate row (R77, R180). -/
def ImmEntry.row (e : ImmEntry) : Row :=
  ⟨0xFF00, e.byte.setWidth 16 <<< 8, .imm8 e.op⟩

/-- A single-register row (R140). -/
def SRegOp.row (e : SRegOp) : Row :=
  e.pattern.row (match e.form with
    | .form8 => .sreg8 e.name
    | .form9 => .sreg9 e.name)

/-- A control-transfer row (R191). -/
def CtEntry.row (e : CtEntry) (j : Ct) : Row :=
  e.pattern.row (.label e.width j)

/-- The rows that the family parameters give, in the order of the table of R81; `RULES` holds each of them after the head
rows, in an order of its own (R70, R81; DEDUCED, log entry 11). -/
def Params.familyRows (p : Params) : List Row :=
  p.waitbRows.map (·.row (.waitB p.waitbFormat))
  ++ [p.pushAll.row (.none .pushAll), p.popAll.row (.none .popAll)]
  ++ p.ctrlOps.map (fun e => e.pattern.row (.none (.ctrl e.name)))
  ++ p.sregOps.map SRegOp.row
  ++ [bitRow p.bitOpc.bitClear .bitClear, bitRow p.bitOpc.bitSet .bitSet, bitRow p.bitOpc.bitTest .bitTest]
  ++ [routeRow p.routeClass.bitOut1 .bitOut1, routeRow p.routeClass.bitOut2 .bitOut2,
    routeRow p.routeClass.bitIn1 .bitIn1, routeRow p.routeClass.bitIn2 .bitIn2]
  ++ p.immOps.map ImmEntry.row
  ++ [p.ct0.row .ct0, p.ct1.row .ct1, p.ct2.row .ct2, p.ct3.row .ct3]

/-- Well-formedness 1 and 2 of a row: no match bit outside the mask, no operand bit inside it (R73, R74). -/
def Row.wellFormed (destBit : Nat) (r : Row) : Bool :=
  r.expected &&& ~~~r.mask == 0 && r.mask &&& r.recipe.format.operandMask destBit == 0

/-- The first of the two shared-byte rows is the one `IMM_P_FIRST` names (R183); R243 lists R183 in none of its checks, and
the model asks this with the table (DESIGN CHOICE, log entry 28). -/
def Params.immOrderOk (p : Params) : Bool :=
  let p1 := p.tail.findIdx fun r => r.recipe == .imm8 .moveImmToP1
  let p2 := p.tail.findIdx fun r => r.recipe == .imm8 .moveImmToP2
  match p.immPFirst with
  | .p1 => p1 < p2
  | .p2 => p2 < p1

/-- Every variant with a defined encoding is produced by some word, for every operand value (R78). The immediate variants
are not among them: an earlier row may shadow even the one that `IMM_P_FIRST` names (DESIGN CHOICE, log entry 27). -/
def Params.reachable (p : Params) : Bool :=
  (encode p .pushAll).isSome && (encode p .popAll).isSome
  && (p.ctrlOps.all fun e => (encode p (.ctrl e.name)).isSome)
  && (p.waitbFormat.allOperands.all fun o => (encode p (.waitB o)).isSome)

/-- Check 3 of R243 (R73 to R79); R75 holds by the form of `Params.rules`, R76 follows from it, R77 and R79 from the
family rows. R183 is asked here too (DESIGN CHOICE, log entry 28). The direct bit of
R140 is not asked, so the rows of one operation's two forms may overlap, and the earlier one decides (DESIGN CHOICE, log
entry 30). -/
def Params.rulesOk (p : Params) : Bool :=
  p.tail.isPerm p.familyRows
  && p.rules.all (Row.wellFormed p.destBit)
  && p.immOrderOk
  && p.reachable

/-- The three checks of R243. -/
inductive ConfigCheck where
  | rom
  | families
  | rules
deriving DecidableEq, Repr

/-- What R243 says of a configuration: admitted, or refused at the first check it fails. -/
inductive ConfigVerdict where
  | admitted
  | refused (at_ : ConfigCheck)
deriving DecidableEq, Repr

/-- The checks in their order (R243). -/
def Params.verdict (p : Params) : ConfigVerdict :=
  if !p.romOk then .refused .rom
  else if !p.familiesOk then .refused .families
  else if !p.rulesOk then .refused .rules
  else .admitted

set_option maxRecDepth 20000 in
/-- EX1 "satisfies every check" (95_test_vectors section 2), so an admitted configuration exists. -/
theorem Params.ex1_admitted : Params.ex1.verdict = .admitted := by
  decide +kernel

/-- An admitted configuration: parameters that pass every check of R243. A refused one defines no block, so it cannot be
built. The default, which only shows that the type is inhabited, is EX1. -/
structure Config where
  params : Params := Params.ex1
  ok : params.verdict = .admitted := by exact Params.ex1_admitted
deriving DecidableEq, Repr, Inhabited

/-- A configuration offered to the block: admitted, or refused at its first failing check (R243). -/
def Config.load (p : Params) : Except ConfigCheck Config :=
  match h : p.verdict with
  | .admitted => .ok ⟨p, h⟩
  | .refused c => .error c

/-- The hardware's own configuration, of which the spec gives only what R243 demands (R6, R7, decision D4). It has no
body: nothing can evaluate it, and what is proved of it is proved of every admitted configuration. -/
opaque Config.block : Config

/-- The instruction that the block's decoder reads from an instruction's bits, numbered as spec/opcode_table.json numbers
them; bits above `nbits` are 0. -/
def decodeTableWord (nbits w : Nat) : Option Instr :=
  match decodeBytes Config.block.params (wordBytes (BitVec.ofNat 16 (w % 2 ^ nbits))) with
  | some (.ok i) => some i
  | some (.noMatch _) => none
  | none => none

end Sys2Proof
end

