-- ==== Sys2Proof/Machine/State.lean ====
section
/-! DEFINITION. The machine's state: the block's ports, its configuration and the host's pending inputs. The block itself
holds no architectural state (R20); an output field holds what the block's function gives for its input field (R240). -/

namespace Sys2Proof.Machine

/-- The flat port form of the decoder's output (R22). A signal outside its "driven when" column is 0. `tag` holds the
variant itself, since its numbering is free (DESIGN CHOICE, log entry 9); it is `none` where it is not driven. -/
structure Ports where
  noMatch : BitVec 1 := 0
  tag     : Option Variant := none
  raw     : Word := 0
  f8      : BitVec 8 := 0
  f9      : BitVec 9 := 0
  form9   : BitVec 1 := 0
  dest    : BitVec 1 := 0
  bit3    : BitVec 3 := 0
  sel2    : BitVec 2 := 0
  idx3    : BitVec 3 := 0
  imm8    : BitVec 8 := 0
  label   : BitVec 12 := 0
  labelW  : BitVec 2 := 0
  k2      : BitVec 2 := 0
deriving DecidableEq, Repr

/-- What the host may present to the block (R59): a word to the decoder, a code, an identity or a name to the ROM, or a
byte stream to the front end. -/
inductive Input where
  | word (w : Word)
  | code (c : Byte)
  | identity (id : Identity)
  | name (n : Name)
  | stream (bytes : List Byte)
deriving DecidableEq, Repr

/-- One run of the front end: its stream, how far it has come, its outputs so far and its odd flag (R50 to R59). -/
structure Run where
  stream   : List Byte
  nextWord : Nat
  results  : List DecodeOut
  odd      : Bool
deriving DecidableEq, Repr

/-- Why the machine would stop with a fault: never. The block raises no exception, trap or interrupt (R220, R225), and
its abnormal outcomes are output values (R108); the type has no constructor, which is safe. -/
inductive Fault where
deriving DecidableEq, Repr

/-- Why the model gives no next state. -/
inductive Refusal where
  /-- Raised by `exec`'s arm of an instruction that has no meaning yet; no arm raises it now. Safe. -/
  | notModelled (mnemonic : String)
  /-- Raised by `MOVL`'s meaning: the mnemonic names no variant, so the decoder has nothing to emit (R185; log entry 8).
  Safe. -/
  | mnemonicNamesNoVariant
  /-- Raised by the name port for a named identity that the configuration does not have: it is no value of the port's
  type (R30, R59), so the spec gives no name for it (DESIGN CHOICE, log entry 14). Safe. -/
  | identityNotInConfiguration (id : Identity)
deriving DecidableEq, Repr

/-- The machine's state. `inputs`, `nextWord` and `suspended` are the model's own (DESIGN CHOICE, log entries 2 and 5);
every other field is a configuration constant or a port that the spec names. -/
structure State where
  /-- The configuration constants (R25); no step changes them (R245). -/
  cfg        : Config
  /-- What the host will present next, in its order (R59). -/
  inputs     : List Input
  /-- The byte sequence presented to the front end (R50). -/
  stream     : List Byte
  /-- The word address of the stream's next word to decode (R53). -/
  nextWord   : Nat
  /-- The run's outputs so far; the result of word `i` stands at index `i` (R56). -/
  results    : List DecodeOut
  /-- The front end's odd flag (R52). -/
  odd        : Bool
  /-- The runs in progress that a later stream was presented over, the latest first; each goes on where it was (R59). -/
  suspended  : List Run
  /-- The decoder's input port (R21). -/
  word       : Word
  /-- The decoder's output port (R21). -/
  out        : DecodeOut
  /-- The flat port form of that output (R22). -/
  ports      : Ports
  /-- The input of `resolve` (R23). -/
  code       : Byte
  /-- The output of `resolve` (R200). -/
  identity   : Identity
  /-- The input of the two name columns (R23). -/
  nameOf     : Identity
  /-- The output of `render_short` (R204). -/
  shortName  : Name
  /-- The output of `render_vendor` (R205). -/
  vendorName : Name
  /-- The input of `parse_short` (R23). -/
  name       : Name
  /-- The output of `parse_short` (R207). -/
  parsed     : Option Identity
deriving DecidableEq, Repr

/-- The block of a configuration before the host has presented anything: every input port 0 or empty (DESIGN CHOICE, log
entry 4), every output port the block's function of its input (R240). -/
def State.powerUp (c : Config) : State where
  cfg := c
  inputs := []
  stream := []
  nextWord := 0
  results := []
  odd := false
  suspended := []
  word := 0
  out := .ok .nop
  ports := ({ tag := some Variant.nop } : Ports)
  code := 0
  identity := resolve c.params 0
  nameOf := .data 0
  shortName := ['D', '0']
  vendorName := ['S', 'F', 'R', '_', 'D', 'A', 'T', 'A', '_', 'R', 'E', 'G', '0']
  name := []
  parsed := parseShort c.params []

/-- The machine right after power is applied (R240), with the configuration that the spec leaves open
(DESIGN CHOICE, log entry 3). -/
def State.reset : State :=
  State.powerUp Config.block

end Sys2Proof.Machine
end

