-- ==== Sys2Proof/Machine/Ops.lean ====
section
/-! DEFINITION. The named operations on the ports: driving the decoder's output, recording a result of a run, and
presenting an input to each port (10_state R21 to R24, 20_memory R56, R59). The block takes no exception (R225). -/

namespace Sys2Proof.Machine

/-- The result of a meaning. -/
abbrev Answer := Host.Outcome State Fault Refusal

/-- A bit as a one-bit signal. -/
def signal (b : Bool) : BitVec 1 :=
  BitVec.ofBool b

/-- The operand signals that R22 drives for each recipe shape; every other signal is 0. -/
def operandSignals : Operands → Ports
  | .none => {}
  | .level k => { k2 := k }
  | .direct f d => { f8 := (RegRef.direct f).norm, dest := signal d.toBit }
  | .extended e d => { f8 := (RegRef.extended e).norm, f9 := e, form9 := 1, dest := signal d.toBit }
  | .bit f b => { f8 := (RegRef.direct f).norm, bit3 := b }
  | .route sel idx => { sel2 := sel, idx3 := idx }
  | .imm k => { imm8 := k }
  | .label l => { label := l.zext, labelW := l.width.code }

/-- `emit V(args)` (R9): the output port holds the instruction, and the flat signals are those of its variant and
operands with the input word passed through (R22). -/
def State.emit (i : Instr) (v : Variant) (o : Operands) (s : State) : State :=
  { s with out := .ok i, ports := { operandSignals o with tag := some v, raw := s.word } }

/-- `emit NoMatch(w)` (R102): every signal but `nomatch` and `raw` is 0 (R22). -/
def State.emitNoMatch (w : Word) (s : State) : State :=
  { s with out := .noMatch w, ports := { noMatch := 1, raw := s.word } }

/-- The host's word, or the stream's next word, at the decoder's input port (R21). -/
def State.presentWord (w : Word) (s : State) : State :=
  { s with word := w }

/-- The output of the run's current word becomes its result, and the run goes on to the next word (R56). -/
def State.record (s : State) : State :=
  { s with results := s.results ++ [s.out], nextWord := s.nextWord + 1 }

/-- A code at the port of `resolve` (R200). -/
def State.presentCode (c : Byte) (s : State) : State :=
  { s with code := c, identity := resolve s.cfg.params c }

/-- An identity at the port of the two name columns (R204, R205). -/
def State.presentIdentity (id : Identity) (s : State) : State :=
  { s with nameOf := id, shortName := renderShort s.cfg.params id, vendorName := renderVendor s.cfg.params id }

/-- A name at the port of `parse_short` (R207). The port's type is the ASCII strings (R23); a name with another character,
which the model's type can hold, is answered none, since no name of the configuration has one (DESIGN CHOICE, log
entry 22). -/
def State.presentName (n : Name) (s : State) : State :=
  { s with name := n, parsed := parseShort s.cfg.params n }

/-- The run that the front end is at. -/
def State.currentRun (s : State) : Run :=
  { stream := s.stream, nextWord := s.nextWord, results := s.results, odd := s.odd }

/-- The runs that are still in progress once another stream is presented: the current one too, unless it has ended
(R59: nothing else ends a run). -/
def State.runsToResume (s : State) : List Run :=
  match wordAt s.stream s.nextWord with
  | some _ => s.currentRun :: s.suspended
  | none => s.suspended

/-- A byte sequence at the front end: a run begins at word address 0 with no results (R50, R53, R59). -/
def State.presentStream (bytes : List Byte) (s : State) : State :=
  { s with stream := bytes, odd := oddFlag bytes, nextWord := 0, results := [], suspended := s.runsToResume }

/-- A suspended run is the current one again, where it was. -/
def State.resume (r : Run) (rest : List Run) (s : State) : State :=
  { s with stream := r.stream, odd := r.odd, nextWord := r.nextWord, results := r.results, suspended := rest }

/-- A step's own work after the meaning of a stream's word has answered. -/
def onNext (f : State → State) : Answer → Answer
  | .next t => .next (f t)
  | .fault e => .fault e
  | .refused r => .refused r

/-- What the next step does: decode the stream's next word, decode a word that the host presents, or take another input. -/
inductive Activity where
  | streamWord (w : Word)
  | portWord (w : Word) (taken : State)
  | answered (a : Answer)

/-- The host's next input, presented to its port (R59). An identity that the configuration does not have is refused
(DESIGN CHOICE, log entry 14). -/
def State.take (x : Input) (s : State) : Activity :=
  match x with
  | .word w => .portWord w s
  | .code c => .answered (.next (s.presentCode c))
  | .identity id =>
    if s.cfg.params.hasIdentity id then .answered (.next (s.presentIdentity id))
    else .answered (.refused (.identityNotInConfiguration id))
  | .name n => .answered (.next (s.presentName n))
  | .stream bytes => .answered (.next (s.presentStream bytes))

/-- A step without an input from the host: the current run's next word; a suspended run where the current one has ended;
with neither, the outputs stand as they are (R240). -/
def State.runOn (s : State) : Activity :=
  match wordAt s.stream s.nextWord with
  | some w => .streamWord w
  | none =>
    match s.suspended with
    | r :: rest => .answered (.next (s.resume r rest))
    | [] => .answered (.next s)

/-- The host's next input comes first, whatever run is in progress: every port is usable at every time (R229, R59); the
runs go on when none is pending (DESIGN CHOICE, log entry 5). -/
def State.activity (s : State) : Activity :=
  match s.inputs with
  | x :: rest => State.take x { s with inputs := rest }
  | [] => s.runOn

/-- The instruction that runs for a word: what the decoder reads, or the catch-all that stands for `NoMatch` (R103). -/
def State.instructionOf (s : State) (w : Word) : Instr :=
  (decode s.cfg.params w).substituted

/-- The consumer's listing of a run: its results with `Unknown(w)` for each `NoMatch(w)` (R103). -/
def State.listing (s : State) : List Instr :=
  s.results.map DecodeOut.substituted

end Sys2Proof.Machine
end

