-- ==== Sys2Proof/Machine/BitIndexed.lean ====
section
/-! DEFINITION. The bit-indexed family (43_bit_indexed): register code and bit index are emitted; no bit is changed or
tested in the block (R164). -/

namespace Sys2Proof.Machine

/-- R161. -/
def execBitClear (f : BitVec 8) (b : BitVec 3) (s : State) : Answer :=
  .next (s.emit (.bitClear f b) .bitClear (.bit f b))

/-- R162. -/
def execBitSet (f : BitVec 8) (b : BitVec 3) (s : State) : Answer :=
  .next (s.emit (.bitSet f b) .bitSet (.bit f b))

/-- R163. -/
def execBitTest (f : BitVec 8) (b : BitVec 3) (s : State) : Answer :=
  .next (s.emit (.bitTest f b) .bitTest (.bit f b))

end Sys2Proof.Machine
end

