-- ==== Sys2Proof/Machine/BitRouting.lean ====
section
/-! DEFINITION. The bit-routing family (44_bit_routing): selector and index are emitted; what they route is not in the
source (R175). -/

namespace Sys2Proof.Machine

/-- R171. -/
def execBitOut1 (sel : BitVec 2) (idx : BitVec 3) (s : State) : Answer :=
  .next (s.emit (.bitOut1 sel idx) .bitOut1 (.route sel idx))

/-- R172. -/
def execBitOut2 (sel : BitVec 2) (idx : BitVec 3) (s : State) : Answer :=
  .next (s.emit (.bitOut2 sel idx) .bitOut2 (.route sel idx))

/-- R173. -/
def execBitIn1 (sel : BitVec 2) (idx : BitVec 3) (s : State) : Answer :=
  .next (s.emit (.bitIn1 sel idx) .bitIn1 (.route sel idx))

/-- R174. -/
def execBitIn2 (sel : BitVec 2) (idx : BitVec 3) (s : State) : Answer :=
  .next (s.emit (.bitIn2 sel idx) .bitIn2 (.route sel idx))

end Sys2Proof.Machine
end

