-- ==== Sys2Proof/Machine/CatchAll.lean ====
section
/-! DEFINITION. The catch-all (40_decode_engine R102, R103). -/

namespace Sys2Proof.Machine

/-- R103: `Unknown(word)` stands on the consumer's side for the decoder's verdict `NoMatch(word)` and carries the same
word; what the block drives is the verdict (R102), never `Ok(Unknown(word))` (DEDUCED, log entry 7). -/
def execUnknown (word : Word) (s : State) : Answer :=
  .next (s.emitNoMatch word)

end Sys2Proof.Machine
end

