-- ==== Sys2Proof/Machine/Control.lean ====
section
/-! DEFINITION. The no-operand control family (41_control): what the decoder emits for each variant. The source gives none
of them an execution meaning (R127), and none is given here. -/

namespace Sys2Proof.Machine

/-- R120. -/
def execNop (s : State) : Answer :=
  .next (s.emit .nop .nop .none)

/-- R121. -/
def execClearWatchDog (s : State) : Answer :=
  .next (s.emit .clearWatchDog .clearWatchDog .none)

/-- R122: the sleep level is an output field; the block has no power state (R234). -/
def execSleep (k : BitVec 2) (s : State) : Answer :=
  .next (s.emit (.sleep k) .sleep (.level k))

/-- R124: the operands are those of `WAITB_FORMAT`. -/
def execWaitB (o : Operands) (s : State) : Answer :=
  .next (s.emit (.waitB o) .waitB o)

/-- R125. -/
def execPushAll (s : State) : Answer :=
  .next (s.emit .pushAll .pushAll .none)

/-- R125. -/
def execPopAll (s : State) : Answer :=
  .next (s.emit .popAll .popAll .none)

/-- R126. -/
def execCtrl (op : Name) (s : State) : Answer :=
  .next (s.emit (.ctrl op) (.ctrl op) .none)

end Sys2Proof.Machine
end

