-- ==== Sys2Proof/Machine/ControlTransfer.lean ====
section
/-! DEFINITION. The control-transfer family (46_control_transfer): the label is emitted as a raw value; nothing is added
to it and no program counter changes (R193, R199). -/

namespace Sys2Proof.Machine

/-- R195. -/
def execCt0 (l : Label) (s : State) : Answer :=
  .next (s.emit (.ct0 l) (.ct .ct0) (.label l))

/-- R196. -/
def execCt1 (l : Label) (s : State) : Answer :=
  .next (s.emit (.ct1 l) (.ct .ct1) (.label l))

/-- R197. -/
def execCt2 (l : Label) (s : State) : Answer :=
  .next (s.emit (.ct2 l) (.ct .ct2) (.label l))

/-- R198. -/
def execCt3 (l : Label) (s : State) : Answer :=
  .next (s.emit (.ct3 l) (.ct .ct3) (.label l))

end Sys2Proof.Machine
end

