-- ==== Sys2Proof/Machine/Immediate.lean ====
section
/-! DEFINITION. The immediate-byte family (45_immediate): the low byte is emitted; what the operations do with it is not
in the source (R185). -/

namespace Sys2Proof.Machine

/-- R181. -/
def execImm (op : Name) (k : BitVec 8) (s : State) : Answer :=
  .next (s.emit (.imm op k) (.imm (.other op)) (.imm k))

/-- R182. -/
def execMoveImmToP1 (k : BitVec 8) (s : State) : Answer :=
  .next (s.emit (.moveImmToP1 k) (.imm .moveImmToP1) (.imm k))

/-- R184. -/
def execMoveImmToP2 (k : BitVec 8) (s : State) : Answer :=
  .next (s.emit (.moveImmToP2 k) (.imm .moveImmToP2) (.imm k))

/-- R185: the source does not say which variant `MOVL` names, and a model must not bind it to one, so the decoder has
nothing to emit for it. -/
def execMovl (_s : State) : Answer :=
  .refused .mnemonicNamesNoVariant

end Sys2Proof.Machine
end

