-- ==== Sys2Proof/Machine/SingleRegister.lean ====
section
/-! DEFINITION. The single-register family (42_single_register): the register code and the destination selector are
emitted; the source defines no operation on them (R144). -/

namespace Sys2Proof.Machine

/-- R142, recipe `SREG8` (R66). -/
def execSregDirect (op : Name) (f : BitVec 8) (d : Dest) (s : State) : Answer :=
  .next (s.emit (.sregDirect op f d) (.sreg op) (.direct f d))

/-- R143, recipe `SREG9` (R67): the raw 9-bit code is kept beside its normalised code. -/
def execSregExtended (op : Name) (e : BitVec 9) (d : Dest) (s : State) : Answer :=
  .next (s.emit (.sregExtended op e d) (.sreg op) (.extended e d))

end Sys2Proof.Machine
end

