-- ==== Sys2Proof/Machine/Dispatch.lean ====
section
/-! DEFINITION. The dispatch from an instruction to its meaning, one arm for each row of spec/opcode_table.json. -/

namespace Sys2Proof.Machine

def exec (i : Instr) (s : State) : Host.Outcome State Fault Refusal :=
  match i with
  | .nop => Sys2Proof.Machine.execNop s
  | .clearWatchDog => Sys2Proof.Machine.execClearWatchDog s
  | .sleep k => Sys2Proof.Machine.execSleep k s
  | .waitB o => Sys2Proof.Machine.execWaitB o s
  | .pushAll => Sys2Proof.Machine.execPushAll s
  | .popAll => Sys2Proof.Machine.execPopAll s
  | .ctrl op => Sys2Proof.Machine.execCtrl op s
  | .sregDirect op f d => Sys2Proof.Machine.execSregDirect op f d s
  | .sregExtended op e d => Sys2Proof.Machine.execSregExtended op e d s
  | .bitClear f b => Sys2Proof.Machine.execBitClear f b s
  | .bitSet f b => Sys2Proof.Machine.execBitSet f b s
  | .bitTest f b => Sys2Proof.Machine.execBitTest f b s
  | .bitOut1 sel idx => Sys2Proof.Machine.execBitOut1 sel idx s
  | .bitOut2 sel idx => Sys2Proof.Machine.execBitOut2 sel idx s
  | .bitIn1 sel idx => Sys2Proof.Machine.execBitIn1 sel idx s
  | .bitIn2 sel idx => Sys2Proof.Machine.execBitIn2 sel idx s
  | .imm op k => Sys2Proof.Machine.execImm op k s
  | .moveImmToP1 k => Sys2Proof.Machine.execMoveImmToP1 k s
  | .moveImmToP2 k => Sys2Proof.Machine.execMoveImmToP2 k s
  | .ct0 l => Sys2Proof.Machine.execCt0 l s
  | .ct1 l => Sys2Proof.Machine.execCt1 l s
  | .ct2 l => Sys2Proof.Machine.execCt2 l s
  | .ct3 l => Sys2Proof.Machine.execCt3 l s
  | .movl => Sys2Proof.Machine.execMovl s
  | .unknown word => Sys2Proof.Machine.execUnknown word s

end Sys2Proof.Machine
end

