-- ==== Sys2Proof/Machine/Step.lean ====
section
/-! DEFINITION. One step: one evaluation of the block on the host's next input or, where none is pending, on the next word of
its run (20_memory
R59, 70_reset_and_hazards R247). -/

namespace Sys2Proof.Machine

def step (s : State) : Host.Outcome State Fault Refusal :=
  match s.activity with
  | .streamWord w => onNext State.record (exec (s.instructionOf w) (s.presentWord w))
  | .portWord w t => exec (t.instructionOf w) (t.presentWord w)
  | .answered a => a

/-- The stream holds the instruction's word where the run decodes next (log entry 6), the odd flag is that of the stream,
and no input of the host comes before the run. -/
def State.withFetchWord (s : State) (nbits w : Nat) : State :=
  let bytes := putWord s.stream s.nextWord (BitVec.ofNat 16 (w % 2 ^ nbits))
  { s with stream := bytes, odd := oddFlag bytes, inputs := [] }

end Sys2Proof.Machine
end

