-- ==== Sys2Proof/Safety.lean ====
section
/-! DEFINITION. What the block's combinational law says of a state (70_reset_and_hazards R240): every output port is the
function of the input port beside it, and a run's results are the decodes of its words so far. Claims about steps are
stated in these terms. A step that refuses is the only way a run stops; no step faults (R220). -/

namespace Sys2Proof.Machine

/-- The flat port form of an output for an input word (R22). -/
def flatPorts (w : Word) : DecodeOut → Ports
  | .ok i => { operandSignals i.operands with tag := i.variant, raw := w }
  | .noMatch _ => { noMatch := 1, raw := w }

/-- The decoder's outputs are its function of the input word (R21, R22, R100). -/
def State.DecoderCoherent (s : State) : Prop :=
  s.out = decode s.cfg.params s.word ∧ s.ports = flatPorts s.word s.out

/-- The ROM's outputs are its functions of their inputs (R23, R200, R204, R205, R207), and the identity at the name port
is one the configuration has. -/
def State.RomCoherent (s : State) : Prop :=
  s.identity = resolve s.cfg.params s.code
  ∧ s.cfg.params.hasIdentity s.nameOf = true
  ∧ s.shortName = renderShort s.cfg.params s.nameOf
  ∧ s.vendorName = renderVendor s.cfg.params s.nameOf
  ∧ s.parsed = parseShort s.cfg.params s.name

/-- A run's results are the decodes of its stream's first `nextWord` words, in order, and `odd` is the stream's (R51,
R52, R56). -/
def Run.Coherent (p : Params) (r : Run) : Prop :=
  r.nextWord ≤ r.stream.length / 2
  ∧ r.results = ((words r.stream).take r.nextWord).map (decode p)
  ∧ r.odd = oddFlag r.stream

/-- The current run is coherent. -/
def State.RunCoherent (s : State) : Prop :=
  s.currentRun.Coherent s.cfg.params

/-- Every suspended run is coherent. -/
def State.SuspendedCoherent (s : State) : Prop :=
  ∀ r ∈ s.suspended, r.Coherent s.cfg.params

/-- The combinational law over the whole state (R240). -/
def State.Coherent (s : State) : Prop :=
  s.DecoderCoherent ∧ s.RomCoherent ∧ s.RunCoherent ∧ s.SuspendedCoherent

/-- An input that a step answers without beginning another run. -/
def Input.lookup (p : Params) : Input → Bool
  | .word _ => true
  | .code _ => true
  | .identity id => p.hasIdentity id
  | .name _ => true
  | .stream _ => false

/-- The run has produced its `L div 2` outputs (R59). -/
def State.RunEnded (s : State) : Prop :=
  s.nextWord = s.stream.length / 2

/-- Everything but the decoder's output port is as before: the frame of every meaning. -/
def State.SameButOutput (s t : State) : Prop :=
  t = { s with out := t.out, ports := t.ports }

end Sys2Proof.Machine
end

