-- ==== Sys2Proof/Certificates/Slice0/Obligations.lean ====
section
/-! DEFINITION. The statements for the provers. Each docstring names the rule it formalises, or, where the rule is one of
the spec's own decisions, that decision. -/

open Sys2Proof Sys2Proof.Machine

/-! The engine -/

/-- R101: the first matching row decides. -/
def Obligations.FirstMatchingRowDecides : Prop :=
  ∀ (c : Config) (before after : List Row) (r : Row) (w : Word),
    c.params.rules = before ++ r :: after → (∀ q ∈ before, w &&& q.mask ≠ q.expected) → w &&& r.mask = r.expected →
    decode c.params w = .ok (r.recipe.apply c.params.destBit w)

/-- R102, R221 (the spec's decision D3): a word that no row matches gives `NoMatch` with that word, and no other does. -/
def Obligations.NoMatchExactlyWhereNoRowMatches : Prop :=
  ∀ (c : Config) (w v : Word),
    decode c.params w = .noMatch v ↔ v = w ∧ ∀ r ∈ c.params.rules, w &&& r.mask ≠ r.expected

/-- R103 (decision D3): the decoder never emits `Ok(Unknown(w))`. That no word decodes to `movl` is the model's deduction
(DEDUCED, log entry 8). -/
def Obligations.DecoderNeverEmitsUnknownOrMovl : Prop :=
  ∀ (c : Config) (w v : Word), decode c.params w ≠ .ok (.unknown v) ∧ decode c.params w ≠ .ok .movl

/-- R76, the source's four samples, under every admitted configuration. -/
def Obligations.SourceSamplesDecode : Prop :=
  ∀ c : Config, decode c.params 0x0000 = .ok .nop ∧ decode c.params 0x0008 = .ok .clearWatchDog
    ∧ decode c.params 0x000C = .ok (.sleep 0) ∧ decode c.params 0x000F = .ok (.sleep 3)

/-- R120 to R122 (decision D5): the words of Nop, ClearWatchDog and Sleep, and no others. -/
def Obligations.HeadInstructionsHaveOnlyTheirWords : Prop :=
  ∀ (c : Config) (w : Word),
    (decode c.params w = .ok .nop ↔ w = 0x0000)
    ∧ (decode c.params w = .ok .clearWatchDog ↔ w = 0x0008)
    ∧ ∀ k : BitVec 2, decode c.params w = .ok (.sleep k) ↔ w = 0x000C ||| k.setWidth 16

/-- R75, R77, R79, R81, R124 to R126, R140, R180, R191: the rows of an admitted table, variant by variant: exactly those
that the variant's parameters give, each once. That no other row stands there is log entry 11, that an immediate operation
has one entry log entry 12 (both DEDUCED), and that CTRL_OPS and SREG_OPS may repeat an operation log entry 23 (DESIGN
CHOICE). -/
def Obligations.FamilyRowsStandOnce : Prop :=
  ∀ c : Config,
    let rows := fun v : Variant => c.params.rules.filter fun r => r.recipe.variant = v
    let p := c.params
    rows .nop = [⟨0xFFFF, 0x0000, .none .nop⟩]
    ∧ rows .clearWatchDog = [⟨0xFFFF, 0x0008, .none .clearWatchDog⟩]
    ∧ rows .sleep = [⟨0xFFFC, 0x000C, .sleep2⟩]
    ∧ rows .unknown = []
    ∧ (rows .waitB).Perm (p.waitbRows.map fun a => ⟨a.mask, a.expected, .waitB p.waitbFormat⟩)
    ∧ (∀ op, (rows (.ctrl op)).Perm
        ((p.ctrlOps.filter fun e => e.name = op).map fun e => ⟨e.pattern.mask, e.pattern.expected, .none (.ctrl op)⟩))
    ∧ (∀ op, (rows (.sreg op)).Perm
        ((p.sregOps.filter fun e => e.name = op).map fun e => ⟨e.pattern.mask, e.pattern.expected, match e.form with
          | .form8 => .sreg8 op
          | .form9 => .sreg9 op⟩))
    ∧ (∀ e ∈ p.immOps, rows (.imm e.op) = [⟨0xFF00, e.byte.setWidth 16 <<< 8, .imm8 e.op⟩])
    ∧ (∀ op, (∀ e ∈ p.immOps, e.op ≠ op) → rows (.imm op) = [])
    ∧ rows .pushAll = [⟨p.pushAll.mask, p.pushAll.expected, .none .pushAll⟩]
    ∧ rows .popAll = [⟨p.popAll.mask, p.popAll.expected, .none .popAll⟩]
    ∧ rows .bitClear = [⟨0xF800, p.bitOpc.bitClear.setWidth 16 <<< 11, .bitidx .bitClear⟩]
    ∧ rows .bitSet = [⟨0xF800, p.bitOpc.bitSet.setWidth 16 <<< 11, .bitidx .bitSet⟩]
    ∧ rows .bitTest = [⟨0xF800, p.bitOpc.bitTest.setWidth 16 <<< 11, .bitidx .bitTest⟩]
    ∧ rows .bitOut1 = [⟨0xFFE0, p.routeClass.bitOut1.setWidth 16 <<< 5, .route .bitOut1⟩]
    ∧ rows .bitOut2 = [⟨0xFFE0, p.routeClass.bitOut2.setWidth 16 <<< 5, .route .bitOut2⟩]
    ∧ rows .bitIn1 = [⟨0xFFE0, p.routeClass.bitIn1.setWidth 16 <<< 5, .route .bitIn1⟩]
    ∧ rows .bitIn2 = [⟨0xFFE0, p.routeClass.bitIn2.setWidth 16 <<< 5, .route .bitIn2⟩]
    ∧ rows (.ct .ct0) = [⟨p.ct0.pattern.mask, p.ct0.pattern.expected, .label p.ct0.width .ct0⟩]
    ∧ rows (.ct .ct1) = [⟨p.ct1.pattern.mask, p.ct1.pattern.expected, .label p.ct1.width .ct1⟩]
    ∧ rows (.ct .ct2) = [⟨p.ct2.pattern.mask, p.ct2.pattern.expected, .label p.ct2.width .ct2⟩]
    ∧ rows (.ct .ct3) = [⟨p.ct3.pattern.mask, p.ct3.pattern.expected, .label p.ct3.width .ct3⟩]

/-- R125, R126, R124 (decisions D23 to D25): a word that reaches a PushAll, PopAll, Ctrl or WaitB row; WaitB's operands are
the bits of the word that the recipe of its format reads (R64 to R69, R71, R72; decisions D6 to D9 and D13). -/
def Obligations.ControlRowsDecode : Prop :=
  ∀ (c : Config) (before after : List Row) (r : Row) (w : Word),
    c.params.rules = before ++ r :: after → (∀ q ∈ before, w &&& q.mask ≠ q.expected) → w &&& r.mask = r.expected →
    (r.recipe = .none .pushAll → decode c.params w = .ok .pushAll)
    ∧ (r.recipe = .none .popAll → decode c.params w = .ok .popAll)
    ∧ (∀ op, r.recipe = .none (.ctrl op) → decode c.params w = .ok (.ctrl op) ∧ ∃ e ∈ c.params.ctrlOps, e.name = op)
    ∧ ∀ fmt, r.recipe = .waitB fmt →
        let d := if w.getLsbD c.params.destBit then Dest.memoryOperand else Dest.accumulator
        fmt = c.params.waitbFormat ∧ decode c.params w = .ok (.waitB (match fmt with
          | .none => .none
          | .sleep2 => .level (w.extractLsb' 0 2)
          | .sreg8 => .direct (w.extractLsb' 0 8) d
          | .sreg9 => .extended (w.extractLsb' 0 9) d
          | .bitidx => .bit (w.extractLsb' 0 8) (w.extractLsb' 8 3)
          | .route => .route (w.extractLsb' 3 2) (w.extractLsb' 0 3)
          | .imm8 => .imm (w.extractLsb' 0 8)
          | .label .w8 => .label (.label8 (w.extractLsb' 0 8))
          | .label .w10 => .label (.label10 (w.extractLsb' 0 10))
          | .label .w12 => .label (.label12 (w.extractLsb' 0 12))))

/-- R142, R143 (decisions D7, D8): a word that reaches a single-register row. -/
def Obligations.SingleRegisterRowsDecode : Prop :=
  ∀ (c : Config) (before after : List Row) (r : Row) (w : Word) (op : Name),
    c.params.rules = before ++ r :: after → (∀ q ∈ before, w &&& q.mask ≠ q.expected) → w &&& r.mask = r.expected →
    let d := if w.getLsbD c.params.destBit then Dest.memoryOperand else Dest.accumulator
    (r.recipe = .sreg8 op → 8 ≤ c.params.destBit ∧ c.params.destBit ≤ 15
      ∧ decode c.params w = .ok (.sregDirect op (w.extractLsb' 0 8) d))
    ∧ (r.recipe = .sreg9 op → 9 ≤ c.params.destBit ∧ c.params.destBit ≤ 15
      ∧ decode c.params w = .ok (.sregExtended op (w.extractLsb' 0 9) d))

/-- R161 to R163 (decision D9): a word with a bit-indexed prefix that no earlier row takes. -/
def Obligations.BitIndexedRowsDecode : Prop :=
  ∀ (c : Config) (before after : List Row) (r : Row) (w : Word),
    c.params.rules = before ++ r :: after → (∀ q ∈ before, w &&& q.mask ≠ q.expected) →
    (r.recipe = .bitidx .bitClear → w &&& 0xF800 = c.params.bitOpc.bitClear.setWidth 16 <<< 11 →
      decode c.params w = .ok (.bitClear (w.extractLsb' 0 8) (w.extractLsb' 8 3)))
    ∧ (r.recipe = .bitidx .bitSet → w &&& 0xF800 = c.params.bitOpc.bitSet.setWidth 16 <<< 11 →
      decode c.params w = .ok (.bitSet (w.extractLsb' 0 8) (w.extractLsb' 8 3)))
    ∧ (r.recipe = .bitidx .bitTest → w &&& 0xF800 = c.params.bitOpc.bitTest.setWidth 16 <<< 11 →
      decode c.params w = .ok (.bitTest (w.extractLsb' 0 8) (w.extractLsb' 8 3)))

/-- R171 to R174 (decision D10): a word with a routing class that no earlier row takes. -/
def Obligations.RoutingRowsDecode : Prop :=
  ∀ (c : Config) (before after : List Row) (r : Row) (w : Word),
    c.params.rules = before ++ r :: after → (∀ q ∈ before, w &&& q.mask ≠ q.expected) →
    (r.recipe = .route .bitOut1 → w &&& 0xFFE0 = c.params.routeClass.bitOut1.setWidth 16 <<< 5 →
      decode c.params w = .ok (.bitOut1 (w.extractLsb' 3 2) (w.extractLsb' 0 3)))
    ∧ (r.recipe = .route .bitOut2 → w &&& 0xFFE0 = c.params.routeClass.bitOut2.setWidth 16 <<< 5 →
      decode c.params w = .ok (.bitOut2 (w.extractLsb' 3 2) (w.extractLsb' 0 3)))
    ∧ (r.recipe = .route .bitIn1 → w &&& 0xFFE0 = c.params.routeClass.bitIn1.setWidth 16 <<< 5 →
      decode c.params w = .ok (.bitIn1 (w.extractLsb' 3 2) (w.extractLsb' 0 3)))
    ∧ (r.recipe = .route .bitIn2 → w &&& 0xFFE0 = c.params.routeClass.bitIn2.setWidth 16 <<< 5 →
      decode c.params w = .ok (.bitIn2 (w.extractLsb' 3 2) (w.extractLsb' 0 3)))

/-- R77: every immediate row tests the high byte exactly, against its operation's byte. -/
def Obligations.ImmediateRowsTestTheWholeHighByte : Prop :=
  ∀ (c : Config) (r : Row) (op : ImmOp), r ∈ c.params.rules → r.recipe = .imm8 op →
    r.mask = 0xFF00 ∧ ∃ b : Byte, c.params.immByte op = some b ∧ r.expected = b.setWidth 16 <<< 8

/-- R181, R182, R184 (decision D11): a word whose high byte is exactly an operation's byte and that no earlier row
takes. -/
def Obligations.ImmediateRowsDecode : Prop :=
  ∀ (c : Config) (before after : List Row) (r : Row) (w : Word) (e : ImmEntry),
    c.params.rules = before ++ r :: after → (∀ q ∈ before, w &&& q.mask ≠ q.expected) →
    e ∈ c.params.immOps → r.recipe = .imm8 e.op → w.extractLsb' 8 8 = e.byte →
    decode c.params w = .ok (match e.op with
      | .moveImmToP1 => .moveImmToP1 (w.extractLsb' 0 8)
      | .moveImmToP2 => .moveImmToP2 (w.extractLsb' 0 8)
      | .other op => .imm op (w.extractLsb' 0 8))

/-- R195 to R198, R72, R193 (decisions D13, D14): a word with a control-transfer prefix that no earlier row takes; the
label is the word's low bits as a raw value. -/
def Obligations.ControlTransferRowsDecode : Prop :=
  ∀ (c : Config) (before after : List Row) (r : Row) (w : Word) (n : LabelWidth) (j : Ct),
    c.params.rules = before ++ r :: after → (∀ q ∈ before, w &&& q.mask ≠ q.expected) → r.recipe = .label n j →
    let entry := match j with
      | .ct0 => c.params.ct0
      | .ct1 => c.params.ct1
      | .ct2 => c.params.ct2
      | .ct3 => c.params.ct3
    w &&& entry.pattern.mask = entry.pattern.expected →
    n = entry.width ∧ ∃ l : Label, l.width = n ∧ l.value = w.toNat % 2 ^ n.bits
      ∧ decode c.params w = .ok (match j with
        | .ct0 => .ct0 l
        | .ct1 => .ct1 l
        | .ct2 => .ct2 l
        | .ct3 => .ct3 l)

/-- R183, R184 (decision D12): of the two shared-byte variants the later one is emitted for no word. -/
def Obligations.LaterMoveImmediateIsNeverEmitted : Prop :=
  ∀ (c : Config) (w : Word) (k : BitVec 8),
    (c.params.immPFirst = .p1 → decode c.params w ≠ .ok (.moveImmToP2 k))
    ∧ (c.params.immPFirst = .p2 → decode c.params w ≠ .ok (.moveImmToP1 k))

/-- R74 (decision D22): the operand bits of each recipe shape, every one of them clear in a row's mask; so an operand value
never restricts which words a row matches. -/
def Obligations.OperandBitsDoNotDecideMatching : Prop :=
  ∀ (c : Config) (r : Row), r ∈ c.params.rules →
    let isOperand : Nat → Prop := fun k => match r.recipe.format with
      | .none => False
      | .sleep2 => k ≤ 1
      | .sreg8 => k ≤ 7 ∨ k = c.params.destBit
      | .sreg9 => k ≤ 8 ∨ k = c.params.destBit
      | .bitidx => k ≤ 10
      | .route => k ≤ 4
      | .imm8 => k ≤ 7
      | .label .w8 => k ≤ 7
      | .label .w10 => k ≤ 9
      | .label .w12 => k ≤ 11
    (∀ k, isOperand k → r.mask.getLsbD k = false)
    ∧ (∀ k, (r.recipe.format.operandMask c.params.destBit).getLsbD k = true ↔ isOperand k)
    ∧ ∀ w v : Word, (∀ k, ¬isOperand k → w.getLsbD k = v.getLsbD k) → r.hits w = r.hits v

/-- R78 (decision D23): every variant with a defined encoding is produced by some word, for every operand value. -/
def Obligations.EncodableVariantsAreProduced : Prop :=
  ∀ c : Config,
    (∃ w, decode c.params w = .ok .nop) ∧ (∃ w, decode c.params w = .ok .clearWatchDog)
    ∧ (∀ k, ∃ w, decode c.params w = .ok (.sleep k))
    ∧ (∃ w, decode c.params w = .ok .pushAll) ∧ (∃ w, decode c.params w = .ok .popAll)
    ∧ (∀ e ∈ c.params.ctrlOps, ∃ w, decode c.params w = .ok (.ctrl e.name))
    ∧ (∀ o : Operands, o.format = c.params.waitbFormat → ∃ w, decode c.params w = .ok (.waitB o))

/-- R107: when the match sets of two rows of an admitted table meet, and a word at which they do. -/
def Obligations.OverlapOfTwoRows : Prop :=
  ∀ (c : Config) (q r : Row), q ∈ c.params.rules → r ∈ c.params.rules →
    ((∃ w, q.hits w = true ∧ r.hits w = true) ↔ (q.expected ^^^ r.expected) &&& q.mask &&& r.mask = 0)
    ∧ ((q.expected ^^^ r.expected) &&& q.mask &&& r.mask = 0 →
        q.hits (q.expected ||| r.expected) = true ∧ r.hits (q.expected ||| r.expected) = true)

/-- R26 (decision D25; label widths: decision D13, log entry 15): what the decoder emits is a value of the configuration's
instruction type. -/
def Obligations.DecodedInstructionsAreWellFormed : Prop :=
  ∀ (c : Config) (w : Word) (i : Instr), decode c.params w = .ok i → i.wellFormed c.params = true

/-- R210: the register operand of a decoded instruction resolves as the word's low byte does; SReg in both forms,
BitClear, BitSet and BitTest have one, and no other variant does, but for a WaitB whose format is a register recipe (the
model's choice, log entry 24). -/
def Obligations.DecodedRegisterIsTheLowByte : Prop :=
  ∀ (c : Config) (w : Word) (i : Instr), decode c.params w = .ok i →
    (∀ f, i.operands.regRef = some f → f.norm = w.extractLsb' 0 8)
    ∧ i.registerIdentity c.params =
      let low := some (resolve c.params (w.extractLsb' 0 8))
      match i with
      | .sregDirect _ _ _ => low
      | .sregExtended _ _ _ => low
      | .bitClear _ _ => low
      | .bitSet _ _ => low
      | .bitTest _ _ => low
      | .waitB o => match o with
        | .direct _ _ => low
        | .extended _ _ => low
        | .bit _ _ => low
        | _ => none
      | _ => none

/-- The decode half of the round trip (R78, decision D23), over the model's own encoder: decoding an instruction's word gives the
instruction back, with every operand. -/
def Obligations.DecodeOfEncode : Prop :=
  ∀ (c : Config) (i : Instr) (w : Word), encode c.params i = some w → decode c.params w = .ok i

/-- The model's own encoder, which the spec's rules do not give (R5 leaves the source's encoder out, and R78 constrains the
table alone), finds a word for exactly the instructions that some word decodes to; so DecodeOfEncode is not empty. -/
def Obligations.EncodeFindsEveryDecodedInstruction : Prop :=
  ∀ (c : Config) (i : Instr), (encode c.params i).isSome = true ↔ ∃ w, decode c.params w = .ok i

/-- R243 (decisions D22, D26): the checks stand in their order, and what passes them is the configuration; and what an
admitted configuration's family parameters and rows satisfy (R73, R141, R160, R170, R180, R190, R191; decisions D8 to D11
and D13). -/
def Obligations.ConfigurationChecksInOrder : Prop :=
  (∀ p : Params,
    (p.romOk = false → p.verdict = .refused .rom)
    ∧ (p.romOk = true → p.familiesOk = false → p.verdict = .refused .families)
    ∧ (p.romOk = true → p.familiesOk = true → p.rulesOk = false → p.verdict = .refused .rules)
    ∧ (p.romOk = true → p.familiesOk = true → p.rulesOk = true → ∃ c, Config.load p = .ok c ∧ c.params = p))
  ∧ ∀ c : Config,
    let p := c.params
    (8 ≤ p.destBit ∧ p.destBit ≤ 15)
    ∧ (p.bitOpc.bitClear ≠ p.bitOpc.bitSet ∧ p.bitOpc.bitClear ≠ p.bitOpc.bitTest ∧ p.bitOpc.bitSet ≠ p.bitOpc.bitTest)
    ∧ (p.routeClass.bitOut1 ≠ p.routeClass.bitOut2 ∧ p.routeClass.bitOut1 ≠ p.routeClass.bitIn1
      ∧ p.routeClass.bitOut1 ≠ p.routeClass.bitIn2 ∧ p.routeClass.bitOut2 ≠ p.routeClass.bitIn1
      ∧ p.routeClass.bitOut2 ≠ p.routeClass.bitIn2 ∧ p.routeClass.bitIn1 ≠ p.routeClass.bitIn2)
    ∧ (∃ b : Byte, (⟨.moveImmToP1, b⟩ : ImmEntry) ∈ p.immOps ∧ (⟨.moveImmToP2, b⟩ : ImmEntry) ∈ p.immOps)
    ∧ (∀ n : LabelWidth, n = p.ct0.width ∨ n = p.ct1.width ∨ n = p.ct2.width ∨ n = p.ct3.width)
    ∧ (∀ e : CtEntry, e = p.ct0 ∨ e = p.ct1 ∨ e = p.ct2 ∨ e = p.ct3 →
      (e.pattern.mask = 0xF000 ∨ e.pattern.mask = 0xFC00 ∨ e.pattern.mask = 0xFE00)
      ∧ e.pattern.mask &&& (match e.width with
        | .w8 => 0x00FF
        | .w10 => 0x03FF
        | .w12 => 0x0FFF) = 0)
    ∧ ∀ r ∈ p.rules, r.expected &&& ~~~r.mask = 0

/-! Bit-fields, operand types and recipes -/

/-- R61: the truncating and the validating constructor, and the field that the decoder slices from a word. -/
def Obligations.BitFieldConstructors : Prop :=
  (∀ n raw : Nat, (field n raw).toNat = raw % 2 ^ n
    ∧ (raw < 2 ^ n → ∃ v, newField n raw = some v ∧ v.toNat = raw)
    ∧ (2 ^ n ≤ raw → newField n raw = none))
    ∧ ∀ (lo n : Nat) (w : Word), (slice lo n w).toNat = w.toNat / 2 ^ lo % 2 ^ n

/-- R27: the destination selector and its bit. -/
def Obligations.DestinationSelectorBit : Prop :=
  Dest.fromBit false = .accumulator ∧ Dest.fromBit true = .memoryOperand
    ∧ (∀ b, (Dest.fromBit b).toBit = b) ∧ ∀ d : Dest, Dest.fromBit d.toBit = d

/-- R64, R69 and R71: what the no-operand, the routing and the immediate recipes emit. -/
def Obligations.PlainRouteAndImmediateRecipes : Prop :=
  ∀ (destBit : Nat) (w : Word),
    (Recipe.none .nop).apply destBit w = .nop
    ∧ (Recipe.none .clearWatchDog).apply destBit w = .clearWatchDog
    ∧ (Recipe.none .pushAll).apply destBit w = .pushAll
    ∧ (Recipe.none .popAll).apply destBit w = .popAll
    ∧ (∀ op, (Recipe.none (.ctrl op)).apply destBit w = .ctrl op)
    ∧ (Recipe.route .bitOut1).apply destBit w = .bitOut1 (w.extractLsb' 3 2) (w.extractLsb' 0 3)
    ∧ (Recipe.route .bitOut2).apply destBit w = .bitOut2 (w.extractLsb' 3 2) (w.extractLsb' 0 3)
    ∧ (Recipe.route .bitIn1).apply destBit w = .bitIn1 (w.extractLsb' 3 2) (w.extractLsb' 0 3)
    ∧ (Recipe.route .bitIn2).apply destBit w = .bitIn2 (w.extractLsb' 3 2) (w.extractLsb' 0 3)
    ∧ (Recipe.imm8 .moveImmToP1).apply destBit w = .moveImmToP1 (w.extractLsb' 0 8)
    ∧ (Recipe.imm8 .moveImmToP2).apply destBit w = .moveImmToP2 (w.extractLsb' 0 8)
    ∧ ∀ op, (Recipe.imm8 (.other op)).apply destBit w = .imm op (w.extractLsb' 0 8)

/-- R194: the reference spelling of a label. -/
def Obligations.LabelSpelling : Prop :=
  (∀ v, (Label.label8 v).text = ['.', 'L'] ++ Nat.toDigits 10 v.toNat)
    ∧ (∀ v, (Label.label10 v).text = ['.', 'L'] ++ Nat.toDigits 10 v.toNat)
    ∧ (∀ v, (Label.label12 v).text = ['.', 'L'] ++ Nat.toDigits 10 v.toNat)

/-! The ROM -/

/-- R31, R200 (decision D15): the address decode. -/
def Obligations.ResolveByAddress : Prop :=
  ∀ (c : Config) (a : Byte),
    (∀ n : Fin 32, resolve c.params a = .data n ↔ a.toNat = 0x20 + n.val)
    ∧ (0x40 ≤ a.toNat → resolve c.params a = .error)
    ∧ (a.toNat ≤ 0x1F → ∀ s, resolve c.params a = .named s ↔ c.params.sfrLow[a.toNat]? = some (some s))
    ∧ (a.toNat ≤ 0x1F → (resolve c.params a = .error ↔ c.params.sfrLow[a.toNat]? = some none))

/-- R31, R30 (decisions D15, D16): every named identity stands at exactly one address, below 0x20, and only named
identities of the configuration do. -/
def Obligations.NamedIdentitiesHaveOneAddress : Prop :=
  ∀ c : Config,
    (∀ s ∈ c.params.namedSet, ∃ a : Byte, a.toNat ≤ 0x1F ∧ resolve c.params a = .named s
      ∧ ∀ b : Byte, resolve c.params b = .named s → b = a)
    ∧ ∀ (a : Byte) (s : NamedSfr), resolve c.params a = .named s → s ∈ c.params.namedSet

/-- R203 (decision D7): bit 8 of an extended code never reaches the ROM. -/
def Obligations.ExtendedCodeResolvesByItsLowByte : Prop :=
  ∀ (c : Config) (e : BitVec 9) (a : BitVec 8), e.toNat % 256 = a.toNat →
    resolve c.params (RegRef.extended e).norm = resolve c.params (RegRef.direct a).norm

/-- R206, R34, R204, R205 (decision D17): both columns are injective on valid identities, the markers are no valid name,
and every name is a non-empty ASCII string. -/
def Obligations.NamesAreInjective : Prop :=
  ∀ (c : Config) (x y : Identity), x ∈ c.params.validIdentities → y ∈ c.params.validIdentities →
    (renderShort c.params x = renderShort c.params y → x = y)
    ∧ (renderVendor c.params x = renderVendor c.params y → x = y)
    ∧ renderShort c.params x ≠ renderShort c.params .error
    ∧ renderVendor c.params x ≠ renderVendor c.params .error
    ∧ renderShort c.params x ≠ [] ∧ (∀ ch ∈ renderShort c.params x, ch.toNat < 128)
    ∧ renderVendor c.params x ≠ [] ∧ (∀ ch ∈ renderVendor c.params x, ch.toNat < 128)

/-- R208: `parse_short` is the left inverse of `render_short` on valid identities. -/
def Obligations.ParseShortInvertsRenderShort : Prop :=
  ∀ (c : Config) (x : Identity), x ∈ c.params.validIdentities → parseShort c.params (renderShort c.params x) = some x

/-- R207 (decision D18): the numeric path, leading zeros included, its range, and that `Error` is never the answer. -/
def Obligations.ParseShortNumericPath : Prop :=
  ∀ (c : Config) (ds : Name), ds ≠ [] → (∀ ch ∈ ds, '0' ≤ ch ∧ ch ≤ '9') →
    let v := ds.foldl (fun acc ch => 10 * acc + (ch.toNat - '0'.toNat)) 0
    (∀ h : v < 32, parseShort c.params ('D' :: ds) = some (.data ⟨v, h⟩))
    ∧ (32 ≤ v → parseShort c.params ('D' :: ds) = none)

/-- R207: `parse_short` answers a valid identity or nothing, so never `Error`; and nothing for `ERROR_SHORT`, since an
admitted one has not the numeric form (DEDUCED, log entry 25). -/
def Obligations.ParseShortAnswersValidIdentities : Prop :=
  ∀ c : Config,
    (∀ (n : Name) (x : Identity), parseShort c.params n = some x → x ∈ c.params.validIdentities ∧ x ≠ .error)
    ∧ parseShort c.params (renderShort c.params .error) = none

/-- R33, R204, R205, R207: the fixed names. -/
def Obligations.FixedNames : Prop :=
  ∀ c : Config, renderShort c.params (.named .programCounter) = "PC".toList
    ∧ renderShort c.params (.named .status) = "SR".toList
    ∧ renderVendor c.params (.named .programCounter) = "SFR_PRG_COUNT".toList
    ∧ (∀ n : Fin 32, renderShort c.params (.data n) = "D".toList ++ Nat.toDigits 10 n.val)
    ∧ (∀ n : Fin 32, renderVendor c.params (.data n) = "SFR_DATA_REG".toList ++ Nat.toDigits 10 n.val)
    ∧ parseShort c.params "PC".toList = some (.named .programCounter)
    ∧ parseShort c.params "SR".toList = some (.named .status)

/-! The front end -/

/-- R51: words are little-endian. -/
def Obligations.WordsAreLittleEndian : Prop :=
  ∀ (bytes : List Byte) (i : Nat) (lo hi : Byte), bytes[2 * i]? = some lo → bytes[2 * i + 1]? = some hi →
    (words bytes)[i]? = some (lo.setWidth 16 ||| hi.setWidth 16 <<< 8)

/-- R52 (decision D19): the front end emits `L div 2` words, an odd last byte changes none of them, and the flag is set
exactly for odd lengths. -/
def Obligations.WordCountAndOddFlag : Prop :=
  ∀ bytes : List Byte, (words bytes).length = bytes.length / 2
    ∧ (oddFlag bytes = true ↔ bytes.length % 2 = 1)
    ∧ ∀ b, bytes.length % 2 = 0 → words (bytes ++ [b]) = words bytes ∧ oddFlag (bytes ++ [b]) = true

/-! The meanings -/

/-- R120 to R122, R125, R126, R22: what the control instructions drive; each completes in every state, and Sleep at every
level. -/
def Obligations.ControlCompletes : Prop :=
  ∀ s : State,
    exec .nop s = .next { s with out := .ok .nop, ports := ({ tag := some .nop, raw := s.word } : Ports) }
    ∧ exec .clearWatchDog s
      = .next { s with out := .ok .clearWatchDog, ports := ({ tag := some .clearWatchDog, raw := s.word } : Ports) }
    ∧ exec .pushAll s = .next { s with out := .ok .pushAll, ports := ({ tag := some .pushAll, raw := s.word } : Ports) }
    ∧ exec .popAll s = .next { s with out := .ok .popAll, ports := ({ tag := some .popAll, raw := s.word } : Ports) }
    ∧ (∀ op, exec (.ctrl op) s
      = .next { s with out := .ok (.ctrl op), ports := ({ tag := some (.ctrl op), raw := s.word } : Ports) })
    ∧ ∀ k : BitVec 2, exec (.sleep k) s
      = .next { s with out := .ok (.sleep k), ports := ({ tag := some .sleep, raw := s.word, k2 := k } : Ports) }

/-- R124, R22: what WaitB drives for each operand shape that `WAITB_FORMAT` may give it, in every state. -/
def Obligations.WaitBCompletes : Prop :=
  ∀ (s : State) (o : Operands), exec (.waitB o) s
    = .next { s with
        out := .ok (.waitB o)
        ports := match o with
          | .none => ({ tag := some .waitB, raw := s.word } : Ports)
          | .level k => ({ tag := some .waitB, raw := s.word, k2 := k } : Ports)
          | .direct f d => ({ tag := some .waitB, raw := s.word, f8 := f, dest := BitVec.ofBool d.toBit } : Ports)
          | .extended e d =>
            ({ tag := some .waitB, raw := s.word, f8 := e.setWidth 8, f9 := e, form9 := 1,
               dest := BitVec.ofBool d.toBit } : Ports)
          | .bit f b => ({ tag := some .waitB, raw := s.word, f8 := f, bit3 := b } : Ports)
          | .route sel idx => ({ tag := some .waitB, raw := s.word, sel2 := sel, idx3 := idx } : Ports)
          | .imm k => ({ tag := some .waitB, raw := s.word, imm8 := k } : Ports)
          | .label (.label8 v) =>
            ({ tag := some .waitB, raw := s.word, label := v.setWidth 12, labelW := 0 } : Ports)
          | .label (.label10 v) =>
            ({ tag := some .waitB, raw := s.word, label := v.setWidth 12, labelW := 1 } : Ports)
          | .label (.label12 v) => ({ tag := some .waitB, raw := s.word, label := v, labelW := 2 } : Ports) }

/-- R142, R143, R22: what the single-register instructions drive in both forms, in every state. -/
def Obligations.SingleRegisterCompletes : Prop :=
  ∀ (s : State) (op : Name) (d : Dest),
    (∀ f : BitVec 8, exec (.sregDirect op f d) s
      = .next { s with
          out := .ok (.sregDirect op f d)
          ports := ({ tag := some (.sreg op), raw := s.word, f8 := f, dest := BitVec.ofBool d.toBit } : Ports) })
    ∧ ∀ e : BitVec 9, exec (.sregExtended op e d) s
      = .next { s with
          out := .ok (.sregExtended op e d)
          ports := ({ tag := some (.sreg op), raw := s.word, f8 := e.setWidth 8, f9 := e, form9 := 1,
                      dest := BitVec.ofBool d.toBit } : Ports) }

/-- R161 to R163, R22: what the bit-indexed instructions drive, in every state. -/
def Obligations.BitIndexedCompletes : Prop :=
  ∀ (s : State) (f : BitVec 8) (b : BitVec 3),
    exec (.bitClear f b) s = .next { s with
      out := .ok (.bitClear f b), ports := ({ tag := some .bitClear, raw := s.word, f8 := f, bit3 := b } : Ports) }
    ∧ exec (.bitSet f b) s = .next { s with
      out := .ok (.bitSet f b), ports := ({ tag := some .bitSet, raw := s.word, f8 := f, bit3 := b } : Ports) }
    ∧ exec (.bitTest f b) s = .next { s with
      out := .ok (.bitTest f b), ports := ({ tag := some .bitTest, raw := s.word, f8 := f, bit3 := b } : Ports) }

/-- R171 to R174, R22: what the bit-routing instructions drive, in every state. -/
def Obligations.BitRoutingCompletes : Prop :=
  ∀ (s : State) (sel : BitVec 2) (idx : BitVec 3),
    exec (.bitOut1 sel idx) s = .next { s with
      out := .ok (.bitOut1 sel idx)
      ports := ({ tag := some .bitOut1, raw := s.word, sel2 := sel, idx3 := idx } : Ports) }
    ∧ exec (.bitOut2 sel idx) s = .next { s with
      out := .ok (.bitOut2 sel idx)
      ports := ({ tag := some .bitOut2, raw := s.word, sel2 := sel, idx3 := idx } : Ports) }
    ∧ exec (.bitIn1 sel idx) s = .next { s with
      out := .ok (.bitIn1 sel idx)
      ports := ({ tag := some .bitIn1, raw := s.word, sel2 := sel, idx3 := idx } : Ports) }
    ∧ exec (.bitIn2 sel idx) s = .next { s with
      out := .ok (.bitIn2 sel idx)
      ports := ({ tag := some .bitIn2, raw := s.word, sel2 := sel, idx3 := idx } : Ports) }

/-- R181, R182, R184, R22: what the immediate-byte instructions drive, in every state. -/
def Obligations.ImmediateCompletes : Prop :=
  ∀ (s : State) (k : BitVec 8),
    (∀ op, exec (.imm op k) s = .next { s with
      out := .ok (.imm op k), ports := ({ tag := some (.imm (.other op)), raw := s.word, imm8 := k } : Ports) })
    ∧ exec (.moveImmToP1 k) s = .next { s with
      out := .ok (.moveImmToP1 k), ports := ({ tag := some (.imm .moveImmToP1), raw := s.word, imm8 := k } : Ports) }
    ∧ exec (.moveImmToP2 k) s = .next { s with
      out := .ok (.moveImmToP2 k), ports := ({ tag := some (.imm .moveImmToP2), raw := s.word, imm8 := k } : Ports) }

/-- R195 to R198, R22: what the control-transfer instructions drive, in every state and at every label width. -/
def Obligations.ControlTransferCompletes : Prop :=
  ∀ (s : State) (l : Label),
    let driven := fun j : Ct => match l with
      | .label8 v => ({ tag := some (.ct j), raw := s.word, label := v.setWidth 12, labelW := 0 } : Ports)
      | .label10 v => ({ tag := some (.ct j), raw := s.word, label := v.setWidth 12, labelW := 1 } : Ports)
      | .label12 v => ({ tag := some (.ct j), raw := s.word, label := v, labelW := 2 } : Ports)
    exec (.ct0 l) s = .next { s with out := .ok (.ct0 l), ports := driven .ct0 }
    ∧ exec (.ct1 l) s = .next { s with out := .ok (.ct1 l), ports := driven .ct1 }
    ∧ exec (.ct2 l) s = .next { s with out := .ok (.ct2 l), ports := driven .ct2 }
    ∧ exec (.ct3 l) s = .next { s with out := .ok (.ct3 l), ports := driven .ct3 }

/-- R102, R103, R22 (DEDUCED, log entry 7): the catch-all drives the verdict with its word, in every state. -/
def Obligations.CatchAllDrivesNoMatch : Prop :=
  ∀ (s : State) (w : Word), exec (.unknown w) s
    = .next { s with out := .noMatch w, ports := ({ noMatch := 1, raw := s.word } : Ports) }

/-- R185 (log entry 8): `MOVL` names no variant, so its meaning refuses by name in every state. -/
def Obligations.MovlIsRefused : Prop :=
  ∀ s : State, exec .movl s = .refused .mnemonicNamesNoVariant

/-- The frame of every meaning: only the decoder's output port changes (R20, R127, R164, R175, R199). -/
def Obligations.MeaningsChangeOnlyTheOutput : Prop :=
  ∀ (i : Instr) (s t : State), exec i s = .next t →
    t.cfg = s.cfg ∧ t.inputs = s.inputs ∧ t.stream = s.stream ∧ t.nextWord = s.nextWord ∧ t.results = s.results
    ∧ t.odd = s.odd ∧ t.suspended = s.suspended ∧ t.word = s.word ∧ t.code = s.code ∧ t.identity = s.identity ∧ t.nameOf = s.nameOf
    ∧ t.shortName = s.shortName ∧ t.vendorName = s.vendorName ∧ t.name = s.name ∧ t.parsed = s.parsed

/-- R22 (decision D2): a signal outside its "driven when" column is 0, and `nomatch` and `raw` are always driven. That the
tag is absent, rather than a number, exactly beside `NoMatch` is the model's choice (DESIGN CHOICE, log entry 9). -/
def Obligations.SignalsOutsideTheirColumnAreZero : Prop :=
  ∀ (i : Instr) (s t : State), exec i s = .next t →
    let fmt := i.operands.format
    t.ports.raw = s.word
    ∧ (t.ports.noMatch = 1 ↔ ∃ w, t.out = .noMatch w)
    ∧ (t.ports.tag = none ↔ ∃ w, t.out = .noMatch w)
    ∧ (t.ports.f8 ≠ 0 → fmt = .sreg8 ∨ fmt = .sreg9 ∨ fmt = .bitidx)
    ∧ (t.ports.f9 ≠ 0 → fmt = .sreg9)
    ∧ (t.ports.form9 ≠ 0 → fmt = .sreg9)
    ∧ (t.ports.dest ≠ 0 → fmt = .sreg8 ∨ fmt = .sreg9)
    ∧ (t.ports.bit3 ≠ 0 → fmt = .bitidx)
    ∧ (t.ports.sel2 ≠ 0 → fmt = .route)
    ∧ (t.ports.idx3 ≠ 0 → fmt = .route)
    ∧ (t.ports.imm8 ≠ 0 → fmt = .imm8)
    ∧ (t.ports.label ≠ 0 → ∃ n, fmt = .label n)
    ∧ (t.ports.labelW ≠ 0 → ∃ n, fmt = .label n)
    ∧ (t.ports.k2 ≠ 0 → fmt = .sleep2)

/-! The step -/

/-- A step runs the decoded instruction (R59): the host's word whenever it presents one, whatever run is in progress
(R229); the stream's next word, with the result recorded and the run moved on, when no input is pending (the host's input
before the run: the model's choice, log entry 5). -/
def Obligations.StepRunsTheDecodedInstruction : Prop :=
  ∀ (s t : State) (i : Instr),
    (∀ lo hi : Byte, s.inputs = [] → s.stream[2 * s.nextWord]? = some lo → s.stream[2 * s.nextWord + 1]? = some hi →
      decode s.cfg.params (hi ++ lo) = .ok i → exec i { s with word := hi ++ lo } = .next t →
      step s = .next { t with results := t.results ++ [t.out], nextWord := t.nextWord + 1 })
    ∧ (∀ (w : Word) (rest : List Input), s.inputs = .word w :: rest → decode s.cfg.params w = .ok i →
      step s = exec i { s with inputs := rest, word := w })

/-- R102, R59 (decision D3): a word that no row matches, from the stream or from the host, does not stop the machine; the
verdict is driven, and is the result of a stream's word. -/
def Obligations.UnmatchedWordDoesNotStop : Prop :=
  ∀ s : State,
    (∀ lo hi : Byte, s.inputs = [] → s.stream[2 * s.nextWord]? = some lo → s.stream[2 * s.nextWord + 1]? = some hi →
      (∀ r ∈ s.cfg.params.rules, (hi ++ lo : Word) &&& r.mask ≠ r.expected) →
      step s = .next { s with
        word := hi ++ lo
        out := .noMatch (hi ++ lo)
        ports := ({ noMatch := 1, raw := hi ++ lo } : Ports)
        results := s.results ++ [.noMatch (hi ++ lo)]
        nextWord := s.nextWord + 1 })
    ∧ ∀ (w : Word) (rest : List Input), s.inputs = .word w :: rest →
      (∀ r ∈ s.cfg.params.rules, w &&& r.mask ≠ r.expected) →
      step s = .next { s with
        inputs := rest, word := w, out := .noMatch w, ports := ({ noMatch := 1, raw := w } : Ports) }

/-- R23, R59, R229, R200, R204, R205, R207: the ROM's ports, and a stream presented, at every time. A stream presented over
a run in progress leaves that run to be taken up again (the model's choice, log entry 5). For a name that is not ASCII, no
value of the port's type, the name clause is the model's choice (DESIGN CHOICE, log entry 22). -/
def Obligations.OtherInputsAreAnswered : Prop :=
  ∀ (s : State) (rest : List Input),
    (∀ a, s.inputs = .code a :: rest →
      step s = .next { s with inputs := rest, code := a, identity := resolve s.cfg.params a })
    ∧ (∀ x, s.inputs = .identity x :: rest → x = .error ∨ x ∈ s.cfg.params.validIdentities →
      step s = .next { s with
        inputs := rest, nameOf := x, shortName := renderShort s.cfg.params x, vendorName := renderVendor s.cfg.params x })
    ∧ (∀ n, s.inputs = .name n :: rest →
      step s = .next { s with inputs := rest, name := n, parsed := parseShort s.cfg.params n })
    ∧ (∀ bytes, s.inputs = .stream bytes :: rest →
      step s = .next { s with
        inputs := rest, stream := bytes, odd := (bytes.length % 2 == 1), nextWord := 0, results := []
        suspended := if s.nextWord < s.stream.length / 2
          then ⟨s.stream, s.nextWord, s.results, s.odd⟩ :: s.suspended else s.suspended })

/-- R240: with no input, no word left and no run to take up again, the outputs stand as they are; a suspended run is taken
up again where it was (such steps: the model's choice, log entry 5). -/
def Obligations.IdleStepChangesNothing : Prop :=
  ∀ s : State, s.inputs = [] → s.stream[2 * s.nextWord + 1]? = none →
    (s.suspended = [] → step s = .next s)
    ∧ ∀ r rest, s.suspended = r :: rest →
      step s = .next { s with
        stream := r.stream, nextWord := r.nextWord, results := r.results, odd := r.odd, suspended := rest }

/-- R59, R104, R220: a step is refused only for an identity that the configuration does not have; no word, matched or
not, stops the machine (the refusal: the model's choice, log entry 14; that a name which is not ASCII is taken: the model's
choice, log entry 22). -/
def Obligations.OnlyAForeignIdentityIsRefused : Prop :=
  ∀ s : State, (∃ t, step s = .next t) ∨ ∃ x rest, s.inputs = .identity x :: rest ∧ x ≠ .error
    ∧ x ∉ s.cfg.params.validIdentities ∧ step s = .refused (.identityNotInConfiguration x)

/-- R25, R245: no step changes the configuration. -/
def Obligations.StepKeepsTheConfiguration : Prop :=
  ∀ s t : State, step s = .next t → t.cfg = s.cfg

/-- R105: what a word's decode drives depends on the word and the configuration alone, whichever way the word came and
whatever came before it. -/
def Obligations.WordOutputIgnoresHistory : Prop :=
  ∀ (s s' t t' : State) (w : Word), s.cfg = s'.cfg →
    (s.inputs = [] ∧ wordAt s.stream s.nextWord = some w ∨ ∃ rest, s.inputs = .word w :: rest) →
    (s'.inputs = [] ∧ wordAt s'.stream s'.nextWord = some w ∨ ∃ rest, s'.inputs = .word w :: rest) →
    step s = .next t → step s' = .next t' → t.out = t'.out ∧ t.ports = t'.ports

/-- R240: the combinational law is kept by every step from every state that meets it. -/
def Obligations.StepKeepsCoherence : Prop :=
  ∀ s t : State, s.Coherent → step s = .next t → t.Coherent

/-- R240 (the ports' values at reset are the model's choice, log entry 4): the machine after reset meets the combinational law. -/
def Obligations.ResetIsCoherent : Prop :=
  State.reset.Coherent ∧ State.reset.RunEnded

/-- R56, R59, R52 (decisions D19, D26): a run over any stream from any state decodes every word in stream order and ends
with its odd flag, in one step for each word and one for each lookup that the host makes meanwhile; and a run over which
another stream is presented ends so too. How many steps that takes, and in what order, is the model's choice (DESIGN
CHOICE, log entry 5). -/
def Obligations.RunDecodesTheWholeStream : Prop :=
  (∀ (s : State) (bytes : List Byte), (∀ x ∈ s.inputs, x.lookup s.cfg.params = true) →
    ∃ t, core.run (s.inputs.length + bytes.length / 2) (s.presentStream bytes) = .next t
      ∧ t.results = (words bytes).map (decode s.cfg.params)
      ∧ t.RunEnded ∧ t.odd = (bytes.length % 2 == 1) ∧ t.cfg = s.cfg ∧ t.inputs = [] ∧ t.stream = bytes)
  ∧ ∀ (s : State) (other : List Byte), s.RunCoherent → s.nextWord < s.stream.length / 2 → s.inputs = [.stream other] →
    ∃ t, core.run (1 + other.length / 2 + 1 + (s.stream.length / 2 - s.nextWord)) s = .next t
      ∧ t.results = (words s.stream).map (decode s.cfg.params)
      ∧ t.RunEnded ∧ t.odd = s.odd ∧ t.cfg = s.cfg ∧ t.inputs = [] ∧ t.stream = s.stream ∧ t.suspended = s.suspended

/-- R103 (decision D3): in a coherent run the consumer's listing holds `Unknown(w)` exactly where the result is
`NoMatch(w)`. -/
def Obligations.ListingHoldsUnknownForNoMatch : Prop :=
  ∀ (s : State) (i : Nat) (w : Word), s.RunCoherent →
    (s.listing[i]? = some (.unknown w) ↔ s.results[i]? = some (.noMatch w))

/-- The host's placing of an instruction (log entry 6): the word placed is the one that the next step decodes. -/
def Obligations.PlacedWordIsFetchedNext : Prop :=
  ∀ (s : State) (w : Nat),
    (s.withFetchWord 16 w).inputs = []
    ∧ wordAt (s.withFetchWord 16 w).stream (s.withFetchWord 16 w).nextWord = some (BitVec.ofNat 16 w)
    ∧ ∀ j, j < s.nextWord → j < s.stream.length / 2 → wordAt (s.withFetchWord 16 w).stream j = wordAt s.stream j

/-- A few words of each family under the spec's illustrative configuration EX1 (95_test_vectors section 3; its invented
names: log entry 10). -/
def Obligations.SampleWordsOfEveryFamily : Prop :=
  decode Params.ex1 0x0010 = .ok .pushAll
    ∧ decode Params.ex1 0x1E25 = .ok (.sregDirect "OpA".toList 0x25 .memoryOperand)
    ∧ decode Params.ex1 0x2321 = .ok (.sregExtended "OpB".toList 0x121 .memoryOperand)
    ∧ decode Params.ex1 0x5325 = .ok (.bitClear 0x25 3)
    ∧ decode Params.ex1 0x009D = .ok (.bitOut1 3 5)
    ∧ decode Params.ex1 0x4A7F = .ok (.moveImmToP1 0x7F)
    ∧ decode Params.ex1 0x7505 = .ok (.ct3 (.label8 5))
    ∧ decode Params.ex1 0xFFFF = .noMatch 0xFFFF
end

