-- ==== Sys2Proof/Laws/Operands.lean ====
section
/-! SUPPORT. Bit-fields bit by bit, and that slicing the operands of a word gives the values placed in it. -/

namespace Sys2Proof

theorem slice_getLsbD (lo n : Nat) (w : Word) (k : Nat) :
    (slice lo n w).getLsbD k = (decide (k < n) && w.getLsbD (lo + k)) := by
  simp [slice, field, Nat.testBit_shiftRight, BitVec.getLsbD]

/-- A slice reads only its own bits. -/
theorem slice_congr {lo n : Nat} {w v : Word} (h : ∀ k, k < n → w.getLsbD (lo + k) = v.getLsbD (lo + k)) :
    slice lo n w = slice lo n v := by
  apply BitVec.eq_of_getLsbD_eq
  intro k hk
  rw [slice_getLsbD, slice_getLsbD, h k hk]

/-- Where a mask is set, a word clear under it has a 0. -/
theorem getLsbD_of_and_eq_zero {w m : Word} (h : w &&& m = 0) {k : Nat} (hm : m.getLsbD k = true) :
    w.getLsbD k = false := by
  have := congrArg (fun v : Word => v.getLsbD k) h
  simpa [hm] using this

@[simp] theorem fromBit_toBit (d : Dest) : Dest.fromBit d.toBit = d := by
  cases d <;> rfl

@[simp] theorem Dest.place_getLsbD (destBit : Nat) (d : Dest) (k : Nat) :
    (d.place destBit).getLsbD k = (d.toBit && decide (k < 16) && decide (destBit = k)) := by
  by_cases h : destBit = k
  · subst h
    cases d <;> simp [Dest.place, Dest.toBit, BitVec.getLsbD_twoPow]
  · cases d <;> simp [Dest.place, Dest.toBit, BitVec.getLsbD_twoPow, h]

/-- A field placed in a word whose own bits there are 0 is what the slice reads. -/
theorem slice_or_of_clear {lo n : Nat} {base x : Word} {v : BitVec n}
    (hb : ∀ k, k < n → base.getLsbD (lo + k) = false) (hx : ∀ k, k < n → x.getLsbD (lo + k) = v.getLsbD k) :
    slice lo n (base ||| x) = v := by
  apply BitVec.eq_of_getLsbD_eq
  intro k hk
  rw [slice_getLsbD, BitVec.getLsbD_or, hb k hk, hx k hk]
  simp [hk]

theorem setWidth_bit {n k lo : Nat} (v : BitVec n) (hk : k < 16) : (v.setWidth 16 <<< lo).getLsbD k
    = (decide (lo ≤ k) && v.getLsbD (k - lo)) := by
  by_cases h : lo ≤ k
  · simp only [BitVec.getLsbD_shiftLeft, BitVec.getLsbD_setWidth]
    simp [hk, h, show k - lo < 16 by omega]
  · simp only [BitVec.getLsbD_shiftLeft]
    simp [h, show k < lo by omega]

/-- A run of ones in a mask at `lo`, `n` bits wide. -/
def Covers (m : Word) (lo n : Nat) : Prop :=
  ∀ k, k < n → m.getLsbD (lo + k) = true

theorem Covers.clear {m base : Word} {lo n : Nat} (hm : Covers m lo n) (hb : base &&& m = 0) :
    ∀ k, k < n → base.getLsbD (lo + k) = false :=
  fun k hk => getLsbD_of_and_eq_zero hb (hm k hk)

theorem Covers.or_left {m : Word} {lo n : Nat} (hm : Covers m lo n) (x : Word) : Covers (m ||| x) lo n :=
  fun k hk => by simp [hm k hk]

theorem covers_of_decide {m : Word} {lo n : Nat} (h : (List.range n).all (fun k => m.getLsbD (lo + k)) = true) :
    Covers m lo n :=
  fun k hk => List.all_eq_true.mp h k (List.mem_range.mpr hk)

theorem destOf_place {destBit : Nat} {base x : Word} {d : Dest} (h15 : destBit ≤ 15)
    (hb : base.getLsbD destBit = false) (hx : x.getLsbD destBit = false) :
    destOf destBit (base ||| (x ||| d.place destBit)) = d := by
  have : destBit < 16 := by omega
  simp only [destOf, BitVec.getLsbD_or, hb, hx, Dest.place_getLsbD]
  simp [this]

/-- A word clear under the operand mask of a shape, with operands of that shape placed in it, gives those operands back:
the encoding and the recipes read the same bits (R64 to R74). -/
theorem extract_place (o : Operands) {destBit : Nat} {base : Word} (h8 : 8 ≤ destBit) (h15 : destBit ≤ 15)
    (h9 : o.format = .sreg9 → 9 ≤ destBit) (hb : base &&& o.format.operandMask destBit = 0) :
    o.format.extract destBit (base ||| o.place destBit) = o := by
  have bit : ∀ {m : Word} {k : Nat}, base &&& m = 0 → m.getLsbD k = true → base.getLsbD k = false :=
    fun h hm => getLsbD_of_and_eq_zero h hm
  cases o with
  | none => rfl
  | level k =>
    simp only [Operands.format, Format.operandMask] at hb
    simp only [Operands.format, Format.extract, Operands.place, Operands.level.injEq]
    refine slice_or_of_clear ((covers_of_decide (by decide)).clear hb) fun j hj => ?_
    simp only [Nat.zero_add, BitVec.getLsbD_setWidth]
    simp [show j < 16 by omega]
  | direct f d =>
    simp only [Operands.format, Format.operandMask] at hb
    simp only [Operands.format, Format.extract, Operands.place, Operands.direct.injEq]
    refine ⟨slice_or_of_clear (((covers_of_decide (by decide)).or_left _).clear hb) fun j hj => ?_,
      destOf_place h15 (bit hb ?_) ?_⟩
    · simp only [Nat.zero_add, BitVec.getLsbD_or, BitVec.getLsbD_setWidth, Dest.place_getLsbD]
      simp [show destBit ≠ j by omega, show j < 16 by omega]
    · simp [show destBit < 16 by omega]
    · rw [BitVec.getLsbD_setWidth, BitVec.getLsbD_of_ge f destBit (by omega), Bool.and_false]
  | extended e d =>
    have h9 := h9 rfl
    simp only [Operands.format, Format.operandMask] at hb
    simp only [Operands.format, Format.extract, Operands.place, Operands.extended.injEq]
    refine ⟨slice_or_of_clear (((covers_of_decide (by decide)).or_left _).clear hb) fun j hj => ?_,
      destOf_place h15 (bit hb ?_) ?_⟩
    · simp only [Nat.zero_add, BitVec.getLsbD_or, BitVec.getLsbD_setWidth, Dest.place_getLsbD]
      simp [show destBit ≠ j by omega, show j < 16 by omega]
    · simp [show destBit < 16 by omega]
    · rw [BitVec.getLsbD_setWidth, BitVec.getLsbD_of_ge e destBit (by omega), Bool.and_false]
  | bit f b =>
    simp only [Operands.format, Format.operandMask] at hb
    simp only [Operands.format, Format.extract, Operands.place, Operands.bit.injEq]
    refine ⟨slice_or_of_clear ((covers_of_decide (by decide)).clear hb) fun j hj => ?_,
      slice_or_of_clear ((covers_of_decide (by decide)).clear hb) fun j hj => ?_⟩
    · rw [BitVec.getLsbD_or, setWidth_bit _ (by omega), BitVec.getLsbD_setWidth]
      simp [show ¬8 ≤ j by omega, show j < 16 by omega]
    · rw [BitVec.getLsbD_or, setWidth_bit _ (by omega), BitVec.getLsbD_setWidth,
        BitVec.getLsbD_of_ge f (8 + j) (by omega)]
      simp
  | route sel idx =>
    simp only [Operands.format, Format.operandMask] at hb
    simp only [Operands.format, Format.extract, Operands.place, Operands.route.injEq]
    refine ⟨slice_or_of_clear ((covers_of_decide (by decide)).clear hb) fun j hj => ?_,
      slice_or_of_clear ((covers_of_decide (by decide)).clear hb) fun j hj => ?_⟩
    · rw [BitVec.getLsbD_or, setWidth_bit _ (by omega), BitVec.getLsbD_setWidth,
        BitVec.getLsbD_of_ge idx (3 + j) (by omega)]
      simp
    · rw [BitVec.getLsbD_or, setWidth_bit _ (by omega), BitVec.getLsbD_setWidth]
      simp [show ¬3 ≤ j by omega, show j < 16 by omega]
  | imm k =>
    simp only [Operands.format, Format.operandMask] at hb
    simp only [Operands.format, Format.extract, Operands.place, Operands.imm.injEq]
    refine slice_or_of_clear ((covers_of_decide (by decide)).clear hb) fun j hj => ?_
    simp only [Nat.zero_add, BitVec.getLsbD_setWidth]
    simp [show j < 16 by omega]
  | label l =>
    cases l with
    | label8 v =>
      simp only [Operands.format, Label.width, Format.operandMask] at hb
      simp only [Operands.format, Label.width, Format.extract, LabelWidth.extract, Operands.place, Label.zext,
        Operands.label.injEq, Label.label8.injEq]
      refine slice_or_of_clear ((covers_of_decide (by decide)).clear hb) fun j hj => ?_
      simp only [Nat.zero_add, BitVec.getLsbD_setWidth]
      simp [show j < 16 by omega, show j < 12 by omega]
    | label10 v =>
      simp only [Operands.format, Label.width, Format.operandMask] at hb
      simp only [Operands.format, Label.width, Format.extract, LabelWidth.extract, Operands.place, Label.zext,
        Operands.label.injEq, Label.label10.injEq]
      refine slice_or_of_clear ((covers_of_decide (by decide)).clear hb) fun j hj => ?_
      simp only [Nat.zero_add, BitVec.getLsbD_setWidth]
      simp [show j < 16 by omega, show j < 12 by omega]
    | label12 v =>
      simp only [Operands.format, Label.width, Format.operandMask] at hb
      simp only [Operands.format, Label.width, Format.extract, LabelWidth.extract, Operands.place, Label.zext,
        Operands.label.injEq, Label.label12.injEq]
      refine slice_or_of_clear ((covers_of_decide (by decide)).clear hb) fun j hj => ?_
      simp only [Nat.zero_add, BitVec.getLsbD_setWidth]
      simp [show j < 16 by omega, show j < 12 by omega]

/-- The other direction: the operands sliced from a word, placed again, are the word's operand bits. -/
theorem place_extract (fmt : Format) {destBit : Nat} (w : Word) (h8 : 8 ≤ destBit) (h15 : destBit ≤ 15)
    (h9 : fmt = .sreg9 → 9 ≤ destBit) :
    (fmt.extract destBit w).place destBit = w &&& fmt.operandMask destBit := by
  have dest : ∀ k, (destOf destBit w).toBit = w.getLsbD destBit ∧ (k < 16 → destBit = k → w.getLsbD destBit = w.getLsbD k) := by
    intro k
    refine ⟨?_, fun _ h => by rw [h]⟩
    cases h : w.getLsbD destBit <;> simp [destOf, Dest.fromBit, h, Dest.toBit]
  apply BitVec.eq_of_getLsbD_eq
  intro j hj
  rcases fmt with _ | _ | _ | _ | _ | _ | _ | (_ | _ | _)
  case sreg8 =>
    simp only [Format.extract, Operands.place, Format.operandMask, BitVec.getLsbD_or, BitVec.getLsbD_and,
      BitVec.getLsbD_setWidth, slice_getLsbD, Dest.place_getLsbD, BitVec.getLsbD_twoPow, (dest j).1, Nat.zero_add]
    by_cases h : destBit = j
    · subst h
      simp [hj, show ¬destBit < 8 by omega]
    · simp only [h, decide_false, Bool.and_false, Bool.or_false]
      interval_cases j <;> simp
  case sreg9 =>
    have := h9 rfl
    simp only [Format.extract, Operands.place, Format.operandMask, BitVec.getLsbD_or, BitVec.getLsbD_and,
      BitVec.getLsbD_setWidth, slice_getLsbD, Dest.place_getLsbD, BitVec.getLsbD_twoPow, (dest j).1, Nat.zero_add]
    by_cases h : destBit = j
    · subst h
      simp [hj, show ¬destBit < 9 by omega]
    · simp only [h, decide_false, Bool.and_false, Bool.or_false]
      interval_cases j <;> simp
  case none => simp [Format.extract, Operands.place, Format.operandMask]
  all_goals
    simp only [Format.extract, LabelWidth.extract, Operands.place, Label.zext, Format.operandMask, BitVec.getLsbD_or,
      BitVec.getLsbD_and, BitVec.getLsbD_setWidth, BitVec.getLsbD_shiftLeft, slice_getLsbD, Nat.zero_add]
    interval_cases j <;> simp

/-- Placed operands lie in the operand bits of their shape. -/
theorem place_and_mask (o : Operands) {destBit : Nat} (h8 : 8 ≤ destBit) (h15 : destBit ≤ 15)
    (h9 : o.format = .sreg9 → 9 ≤ destBit) : o.place destBit &&& o.format.operandMask destBit = o.place destBit := by
  have h := extract_place (base := 0#16) o h8 h15 h9 (by simp)
  simp only [BitVec.zero_or] at h
  have h2 := place_extract o.format (o.place destBit) h8 h15 h9
  rw [h] at h2
  exact h2.symm

end Sys2Proof
end

