-- ==== Sys2Proof/Laws/Decode.lean ====
section
/-! SUPPORT. The engine's own small lemmas: one equation for each shape of a table, what a recipe's instruction carries,
and the parts of a configuration's verdict. -/

namespace Sys2Proof

@[simp] theorem firstMatch_nil (destBit : Nat) (w : Word) : firstMatch destBit w [] = .noMatch w := rfl

theorem firstMatch_cons_of_hits {destBit : Nat} {w : Word} {r : Row} (rs : List Row) (h : r.hits w = true) :
    firstMatch destBit w (r :: rs) = .ok (r.recipe.apply destBit w) := by
  simp [firstMatch, h]

theorem firstMatch_cons_of_not_hits {destBit : Nat} {w : Word} {r : Row} (rs : List Row) (h : r.hits w = false) :
    firstMatch destBit w (r :: rs) = firstMatch destBit w rs := by
  simp [firstMatch, h]

/-- Rows that do not match pass the word on to the rows after them. -/
theorem firstMatch_append_of_no_hit {destBit : Nat} {w : Word} (before rs : List Row)
    (h : ∀ r ∈ before, r.hits w = false) : firstMatch destBit w (before ++ rs) = firstMatch destBit w rs := by
  induction before with
  | nil => rfl
  | cons r before ih =>
    rw [List.cons_append, firstMatch_cons_of_not_hits _ (h r (by simp)), ih fun q hq => h q (by simp [hq])]

/-- Everything a decode over a list of rows can answer: some row matches, none before it does, and its recipe is the
result; or no row matches. -/
theorem firstMatch_cases (destBit : Nat) (w : Word) (rs : List Row) :
    (∃ before r after, rs = before ++ r :: after ∧ (∀ q ∈ before, q.hits w = false) ∧ r.hits w = true
      ∧ firstMatch destBit w rs = .ok (r.recipe.apply destBit w))
    ∨ ((∀ q ∈ rs, q.hits w = false) ∧ firstMatch destBit w rs = .noMatch w) := by
  induction rs with
  | nil => exact .inr ⟨by simp, rfl⟩
  | cons q rs ih =>
    cases hq : q.hits w with
    | true => exact .inl ⟨[], q, rs, rfl, by simp, hq, firstMatch_cons_of_hits rs hq⟩
    | false =>
      rw [firstMatch_cons_of_not_hits rs hq]
      obtain ⟨before, r, after, rfl, hb, hr, he⟩ | ⟨hn, he⟩ := ih
      · exact .inl ⟨q :: before, r, after, rfl, by simpa [hq] using hb, hr, he⟩
      · exact .inr ⟨by simpa [hq] using hn, he⟩

/-- A recipe's instruction is of the recipe's variant. -/
@[simp] theorem Recipe.apply_variant (rc : Recipe) (destBit : Nat) (w : Word) :
    (rc.apply destBit w).variant = some rc.variant := by
  rcases rc with (_ | _ | _ | _ | _) | _ | _ | _ | (_ | _ | _) | (_ | _ | _ | _) | (_ | _ | _) | ⟨_, (_ | _ | _ | _)⟩ | _ <;> rfl

/-- A recipe's instruction carries the operands its shape slices. -/
@[simp] theorem Recipe.apply_operands (rc : Recipe) (destBit : Nat) (w : Word) :
    (rc.apply destBit w).operands = rc.format.extract destBit w := by
  rcases rc with (_ | _ | _ | _ | _) | _ | _ | _ | (_ | _ | _) | (_ | _ | _ | _) | (_ | _ | _) | ⟨_, (_ | _ | _ | _)⟩ | _ <;> rfl

/-- No recipe names the catch-all. -/
theorem Recipe.variant_ne_unknown (rc : Recipe) : rc.variant ≠ .unknown := by
  rcases rc with (_ | _ | _ | _ | _) | _ | _ | _ | (_ | _ | _) | (_ | _ | _ | _) | _ | _ | _ <;> simp [Recipe.variant]

/-- The instruction of a variant and operands, where there is one; a proof's aid. -/
def rebuild : Variant → Operands → Option Instr
  | .nop, _ => some .nop
  | .clearWatchDog, _ => some .clearWatchDog
  | .sleep, .level k => some (.sleep k)
  | .waitB, o => some (.waitB o)
  | .pushAll, _ => some .pushAll
  | .popAll, _ => some .popAll
  | .ctrl op, _ => some (.ctrl op)
  | .sreg op, .direct f d => some (.sregDirect op f d)
  | .sreg op, .extended e d => some (.sregExtended op e d)
  | .bitClear, .bit f b => some (.bitClear f b)
  | .bitSet, .bit f b => some (.bitSet f b)
  | .bitTest, .bit f b => some (.bitTest f b)
  | .bitOut1, .route sel idx => some (.bitOut1 sel idx)
  | .bitOut2, .route sel idx => some (.bitOut2 sel idx)
  | .bitIn1, .route sel idx => some (.bitIn1 sel idx)
  | .bitIn2, .route sel idx => some (.bitIn2 sel idx)
  | .imm (.other op), .imm k => some (.imm op k)
  | .imm .moveImmToP1, .imm k => some (.moveImmToP1 k)
  | .imm .moveImmToP2, .imm k => some (.moveImmToP2 k)
  | .ct .ct0, .label l => some (.ct0 l)
  | .ct .ct1, .label l => some (.ct1 l)
  | .ct .ct2, .label l => some (.ct2 l)
  | .ct .ct3, .label l => some (.ct3 l)
  | _, _ => none

theorem rebuild_self {i : Instr} {v : Variant} (h : i.variant = some v) (hv : v ≠ .unknown) :
    rebuild v i.operands = some i := by
  cases i <;> simp [Instr.variant] at h <;> subst h <;> first | rfl | exact absurd rfl hv

/-- Variant and operands determine an instruction that some row emits. -/
theorem Instr.eq_of_variant_operands {i j : Instr} {v : Variant} (hi : i.variant = some v) (hj : j.variant = some v)
    (hv : v ≠ .unknown) (ho : i.operands = j.operands) : i = j := by
  have := (rebuild_self hi hv).symm.trans ((congrArg (rebuild v) ho).trans (rebuild_self hj hv))
  exact Option.some.inj this

theorem Recipe.emits_iff {rc : Recipe} {i : Instr} :
    rc.emits i = true ↔ i.variant = some rc.variant ∧ i.operands.format = rc.format := by
  simp [Recipe.emits]

@[simp] theorem Format.extract_format (fmt : Format) (destBit : Nat) (w : Word) :
    (fmt.extract destBit w).format = fmt := by
  rcases fmt with _ | _ | _ | _ | _ | _ | _ | (_ | _ | _) <;> rfl

/-- A recipe emits what it builds. -/
theorem Recipe.emits_apply (rc : Recipe) (destBit : Nat) (w : Word) : rc.emits (rc.apply destBit w) = true := by
  simp [Recipe.emits_iff]

/-- A recipe applied to a word with an instruction's operands placed in it builds that instruction. -/
theorem Recipe.apply_place {rc : Recipe} {i : Instr} {destBit : Nat} {base : Word} (he : rc.emits i = true)
    (h8 : 8 ≤ destBit) (h15 : destBit ≤ 15) (h9 : rc.format = .sreg9 → 9 ≤ destBit)
    (hb : base &&& rc.format.operandMask destBit = 0) :
    rc.apply destBit (base ||| i.operands.place destBit) = i := by
  obtain ⟨hv, hf⟩ := Recipe.emits_iff.mp he
  refine Instr.eq_of_variant_operands (by simp) hv rc.variant_ne_unknown ?_
  rw [Recipe.apply_operands, ← hf]
  rw [← hf] at h9 hb
  exact extract_place _ h8 h15 h9 hb

/-- An admitted configuration passes each of the three checks (R243). -/
theorem Config.checks (c : Config) :
    c.params.romOk = true ∧ c.params.familiesOk = true ∧ c.params.rulesOk = true := by
  have h := c.ok
  unfold Params.verdict at h
  split at h
  · cases h
  · split at h
    · cases h
    · split at h
      · cases h
      · simp_all

theorem Config.romOk (c : Config) : c.params.romOk = true := c.checks.1
theorem Config.familiesOk (c : Config) : c.params.familiesOk = true := c.checks.2.1
theorem Config.rulesOk (c : Config) : c.params.rulesOk = true := c.checks.2.2

theorem Row.hits_iff {r : Row} {w : Word} : r.hits w = true ↔ w &&& r.mask = r.expected := by
  simp [Row.hits]

theorem Row.not_hits_iff {r : Row} {w : Word} : r.hits w = false ↔ w &&& r.mask ≠ r.expected := by
  simp [Row.hits]

/-- What a decoded instruction comes from: the first matching row, whose recipe built it, so that it has the recipe's
variant. -/
theorem decode_ok_inversion {p : Params} {w : Word} {i : Instr} (h : decode p w = .ok i) :
    ∃ before r after, p.rules = before ++ r :: after ∧ (∀ q ∈ before, q.hits w = false) ∧ r.hits w = true
      ∧ i = r.recipe.apply p.destBit w ∧ i.variant = some r.recipe.variant := by
  obtain ⟨before, r, after, h1, h2, h3, h4⟩ | ⟨_, h2⟩ := firstMatch_cases p.destBit w p.rules
  · rw [decode, h4] at h
    cases h
    exact ⟨before, r, after, h1, h2, h3, rfl, by simp⟩
  · rw [decode, h2] at h
    cases h

/-- The parts of check 3 (R243). -/
theorem Config.rules_checked (c : Config) :
    c.params.tail.Perm c.params.familyRows ∧ (∀ r ∈ c.params.rules, r.wellFormed c.params.destBit = true)
      ∧ c.params.immOrderOk = true ∧ c.params.reachable = true := by
  have h := c.rulesOk
  simp only [Params.rulesOk, Bool.and_eq_true] at h
  exact ⟨List.isPerm_iff.mp h.1.1.1, List.all_eq_true.mp h.1.1.2, h.1.2, h.2⟩

/-- The parts of check 2 (R243). -/
theorem Config.families_checked (c : Config) :
    c.params.destBitOk = true
      ∧ distinct [c.params.bitOpc.bitClear, c.params.bitOpc.bitSet, c.params.bitOpc.bitTest] = true
      ∧ distinct [c.params.routeClass.bitOut1, c.params.routeClass.bitOut2, c.params.routeClass.bitIn1,
          c.params.routeClass.bitIn2] = true
      ∧ c.params.immOpsOk = true ∧ c.params.ctOk = true := by
  have h := c.familiesOk
  simp only [Params.familiesOk, Bool.and_eq_true] at h
  exact ⟨h.1.1.1.1, h.1.1.1.2, h.1.1.2, h.1.2, h.2⟩

/-- A row of the table is a head row or one that a family parameter gives (R75, R81). -/
theorem Config.mem_rules {c : Config} {r : Row} :
    r ∈ c.params.rules ↔ r ∈ headRows ∨ r ∈ c.params.familyRows := by
  rw [Params.rules, List.mem_append, c.rules_checked.1.mem_iff]

@[simp] theorem SRegOp.row_variant (e : SRegOp) : e.row.recipe.variant = .sreg e.name := by
  cases h : e.form <;> simp [SRegOp.row, Pattern.row, h, Recipe.variant]

end Sys2Proof
end

