-- ==== Sys2Proof/Laws/PerInstr.lean ====
section
/-! SUPPORT. Per instruction: whatever row emits it, the recipe reads back exactly the operands placed in the word. -/

namespace Sys2Proof.Laws.PlacedOperands

/-- A recipe that emits the instruction, applied to a word that is clear in the recipe's operand bits (R74) with the
instruction's operands placed there, builds the instruction. -/
def Statement (i : Instr) : Prop :=
  ∀ (rc : Recipe) (destBit : Nat) (base : Word), rc.emits i = true → 8 ≤ destBit → destBit ≤ 15 →
    (rc.format = .sreg9 → 9 ≤ destBit) → base &&& rc.format.operandMask destBit = 0 →
    rc.apply destBit (base ||| i.operands.place destBit) = i

theorem nop : Statement .nop :=
  fun _ _ _ he h8 h15 h9 hb => Recipe.apply_place he h8 h15 h9 hb

theorem clearWatchDog : Statement .clearWatchDog :=
  fun _ _ _ he h8 h15 h9 hb => Recipe.apply_place he h8 h15 h9 hb

theorem sleep (k : BitVec 2) : Statement (.sleep k) :=
  fun _ _ _ he h8 h15 h9 hb => Recipe.apply_place he h8 h15 h9 hb

theorem waitB (o : Operands) : Statement (.waitB o) :=
  fun _ _ _ he h8 h15 h9 hb => Recipe.apply_place he h8 h15 h9 hb

theorem pushAll : Statement .pushAll :=
  fun _ _ _ he h8 h15 h9 hb => Recipe.apply_place he h8 h15 h9 hb

theorem popAll : Statement .popAll :=
  fun _ _ _ he h8 h15 h9 hb => Recipe.apply_place he h8 h15 h9 hb

theorem ctrl (op : Name) : Statement (.ctrl op) :=
  fun _ _ _ he h8 h15 h9 hb => Recipe.apply_place he h8 h15 h9 hb

theorem sregDirect (op : Name) (f : BitVec 8) (d : Dest) : Statement (.sregDirect op f d) :=
  fun _ _ _ he h8 h15 h9 hb => Recipe.apply_place he h8 h15 h9 hb

theorem sregExtended (op : Name) (e : BitVec 9) (d : Dest) : Statement (.sregExtended op e d) :=
  fun _ _ _ he h8 h15 h9 hb => Recipe.apply_place he h8 h15 h9 hb

theorem bitClear (f : BitVec 8) (b : BitVec 3) : Statement (.bitClear f b) :=
  fun _ _ _ he h8 h15 h9 hb => Recipe.apply_place he h8 h15 h9 hb

theorem bitSet (f : BitVec 8) (b : BitVec 3) : Statement (.bitSet f b) :=
  fun _ _ _ he h8 h15 h9 hb => Recipe.apply_place he h8 h15 h9 hb

theorem bitTest (f : BitVec 8) (b : BitVec 3) : Statement (.bitTest f b) :=
  fun _ _ _ he h8 h15 h9 hb => Recipe.apply_place he h8 h15 h9 hb

theorem bitOut1 (sel : BitVec 2) (idx : BitVec 3) : Statement (.bitOut1 sel idx) :=
  fun _ _ _ he h8 h15 h9 hb => Recipe.apply_place he h8 h15 h9 hb

theorem bitOut2 (sel : BitVec 2) (idx : BitVec 3) : Statement (.bitOut2 sel idx) :=
  fun _ _ _ he h8 h15 h9 hb => Recipe.apply_place he h8 h15 h9 hb

theorem bitIn1 (sel : BitVec 2) (idx : BitVec 3) : Statement (.bitIn1 sel idx) :=
  fun _ _ _ he h8 h15 h9 hb => Recipe.apply_place he h8 h15 h9 hb

theorem bitIn2 (sel : BitVec 2) (idx : BitVec 3) : Statement (.bitIn2 sel idx) :=
  fun _ _ _ he h8 h15 h9 hb => Recipe.apply_place he h8 h15 h9 hb

theorem imm (op : Name) (k : BitVec 8) : Statement (.imm op k) :=
  fun _ _ _ he h8 h15 h9 hb => Recipe.apply_place he h8 h15 h9 hb

theorem moveImmToP1 (k : BitVec 8) : Statement (.moveImmToP1 k) :=
  fun _ _ _ he h8 h15 h9 hb => Recipe.apply_place he h8 h15 h9 hb

theorem moveImmToP2 (k : BitVec 8) : Statement (.moveImmToP2 k) :=
  fun _ _ _ he h8 h15 h9 hb => Recipe.apply_place he h8 h15 h9 hb

theorem ct0 (l : Label) : Statement (.ct0 l) :=
  fun _ _ _ he h8 h15 h9 hb => Recipe.apply_place he h8 h15 h9 hb

theorem ct1 (l : Label) : Statement (.ct1 l) :=
  fun _ _ _ he h8 h15 h9 hb => Recipe.apply_place he h8 h15 h9 hb

theorem ct2 (l : Label) : Statement (.ct2 l) :=
  fun _ _ _ he h8 h15 h9 hb => Recipe.apply_place he h8 h15 h9 hb

theorem ct3 (l : Label) : Statement (.ct3 l) :=
  fun _ _ _ he h8 h15 h9 hb => Recipe.apply_place he h8 h15 h9 hb

theorem movl : Statement .movl :=
  fun _ _ _ he h8 h15 h9 hb => Recipe.apply_place he h8 h15 h9 hb

theorem unknown (word : Word) : Statement (.unknown word) :=
  fun _ _ _ he h8 h15 h9 hb => Recipe.apply_place he h8 h15 h9 hb

end Sys2Proof.Laws.PlacedOperands
end

