-- ==== Sys2Proof/Laws/State.lean ====
section
/-! SUPPORT. What each update of the state does to each field, one lemma for each pair, so that no proof unfolds an
update. -/

namespace Sys2Proof.Machine

variable (s : State)

@[simp] theorem State.emit_cfg (i : Instr) (v : Variant) (o : Operands) : (s.emit i v o).cfg = s.cfg := rfl
@[simp] theorem State.emit_inputs (i : Instr) (v : Variant) (o : Operands) : (s.emit i v o).inputs = s.inputs := rfl
@[simp] theorem State.emit_stream (i : Instr) (v : Variant) (o : Operands) : (s.emit i v o).stream = s.stream := rfl
@[simp] theorem State.emit_nextWord (i : Instr) (v : Variant) (o : Operands) : (s.emit i v o).nextWord = s.nextWord := rfl
@[simp] theorem State.emit_results (i : Instr) (v : Variant) (o : Operands) : (s.emit i v o).results = s.results := rfl
@[simp] theorem State.emit_odd (i : Instr) (v : Variant) (o : Operands) : (s.emit i v o).odd = s.odd := rfl
@[simp] theorem State.emit_suspended (i : Instr) (v : Variant) (o : Operands) : (s.emit i v o).suspended = s.suspended := rfl
@[simp] theorem State.emit_word (i : Instr) (v : Variant) (o : Operands) : (s.emit i v o).word = s.word := rfl
@[simp] theorem State.emit_out (i : Instr) (v : Variant) (o : Operands) : (s.emit i v o).out = .ok i := rfl
@[simp] theorem State.emit_ports (i : Instr) (v : Variant) (o : Operands) : (s.emit i v o).ports = { operandSignals o with tag := some v, raw := s.word } := rfl
@[simp] theorem State.emit_code (i : Instr) (v : Variant) (o : Operands) : (s.emit i v o).code = s.code := rfl
@[simp] theorem State.emit_identity (i : Instr) (v : Variant) (o : Operands) : (s.emit i v o).identity = s.identity := rfl
@[simp] theorem State.emit_nameOf (i : Instr) (v : Variant) (o : Operands) : (s.emit i v o).nameOf = s.nameOf := rfl
@[simp] theorem State.emit_shortName (i : Instr) (v : Variant) (o : Operands) : (s.emit i v o).shortName = s.shortName := rfl
@[simp] theorem State.emit_vendorName (i : Instr) (v : Variant) (o : Operands) : (s.emit i v o).vendorName = s.vendorName := rfl
@[simp] theorem State.emit_name (i : Instr) (v : Variant) (o : Operands) : (s.emit i v o).name = s.name := rfl
@[simp] theorem State.emit_parsed (i : Instr) (v : Variant) (o : Operands) : (s.emit i v o).parsed = s.parsed := rfl

@[simp] theorem State.emitNoMatch_cfg (w : Word) : (s.emitNoMatch w).cfg = s.cfg := rfl
@[simp] theorem State.emitNoMatch_inputs (w : Word) : (s.emitNoMatch w).inputs = s.inputs := rfl
@[simp] theorem State.emitNoMatch_stream (w : Word) : (s.emitNoMatch w).stream = s.stream := rfl
@[simp] theorem State.emitNoMatch_nextWord (w : Word) : (s.emitNoMatch w).nextWord = s.nextWord := rfl
@[simp] theorem State.emitNoMatch_results (w : Word) : (s.emitNoMatch w).results = s.results := rfl
@[simp] theorem State.emitNoMatch_odd (w : Word) : (s.emitNoMatch w).odd = s.odd := rfl
@[simp] theorem State.emitNoMatch_suspended (w : Word) : (s.emitNoMatch w).suspended = s.suspended := rfl
@[simp] theorem State.emitNoMatch_word (w : Word) : (s.emitNoMatch w).word = s.word := rfl
@[simp] theorem State.emitNoMatch_out (w : Word) : (s.emitNoMatch w).out = .noMatch w := rfl
@[simp] theorem State.emitNoMatch_ports (w : Word) : (s.emitNoMatch w).ports = { noMatch := 1, raw := s.word } := rfl
@[simp] theorem State.emitNoMatch_code (w : Word) : (s.emitNoMatch w).code = s.code := rfl
@[simp] theorem State.emitNoMatch_identity (w : Word) : (s.emitNoMatch w).identity = s.identity := rfl
@[simp] theorem State.emitNoMatch_nameOf (w : Word) : (s.emitNoMatch w).nameOf = s.nameOf := rfl
@[simp] theorem State.emitNoMatch_shortName (w : Word) : (s.emitNoMatch w).shortName = s.shortName := rfl
@[simp] theorem State.emitNoMatch_vendorName (w : Word) : (s.emitNoMatch w).vendorName = s.vendorName := rfl
@[simp] theorem State.emitNoMatch_name (w : Word) : (s.emitNoMatch w).name = s.name := rfl
@[simp] theorem State.emitNoMatch_parsed (w : Word) : (s.emitNoMatch w).parsed = s.parsed := rfl

@[simp] theorem State.presentWord_cfg (w : Word) : (s.presentWord w).cfg = s.cfg := rfl
@[simp] theorem State.presentWord_inputs (w : Word) : (s.presentWord w).inputs = s.inputs := rfl
@[simp] theorem State.presentWord_stream (w : Word) : (s.presentWord w).stream = s.stream := rfl
@[simp] theorem State.presentWord_nextWord (w : Word) : (s.presentWord w).nextWord = s.nextWord := rfl
@[simp] theorem State.presentWord_results (w : Word) : (s.presentWord w).results = s.results := rfl
@[simp] theorem State.presentWord_odd (w : Word) : (s.presentWord w).odd = s.odd := rfl
@[simp] theorem State.presentWord_suspended (w : Word) : (s.presentWord w).suspended = s.suspended := rfl
@[simp] theorem State.presentWord_word (w : Word) : (s.presentWord w).word = w := rfl
@[simp] theorem State.presentWord_out (w : Word) : (s.presentWord w).out = s.out := rfl
@[simp] theorem State.presentWord_ports (w : Word) : (s.presentWord w).ports = s.ports := rfl
@[simp] theorem State.presentWord_code (w : Word) : (s.presentWord w).code = s.code := rfl
@[simp] theorem State.presentWord_identity (w : Word) : (s.presentWord w).identity = s.identity := rfl
@[simp] theorem State.presentWord_nameOf (w : Word) : (s.presentWord w).nameOf = s.nameOf := rfl
@[simp] theorem State.presentWord_shortName (w : Word) : (s.presentWord w).shortName = s.shortName := rfl
@[simp] theorem State.presentWord_vendorName (w : Word) : (s.presentWord w).vendorName = s.vendorName := rfl
@[simp] theorem State.presentWord_name (w : Word) : (s.presentWord w).name = s.name := rfl
@[simp] theorem State.presentWord_parsed (w : Word) : (s.presentWord w).parsed = s.parsed := rfl

@[simp] theorem State.record_cfg : (s.record).cfg = s.cfg := rfl
@[simp] theorem State.record_inputs : (s.record).inputs = s.inputs := rfl
@[simp] theorem State.record_stream : (s.record).stream = s.stream := rfl
@[simp] theorem State.record_nextWord : (s.record).nextWord = s.nextWord + 1 := rfl
@[simp] theorem State.record_results : (s.record).results = s.results ++ [s.out] := rfl
@[simp] theorem State.record_odd : (s.record).odd = s.odd := rfl
@[simp] theorem State.record_suspended : (s.record).suspended = s.suspended := rfl
@[simp] theorem State.record_word : (s.record).word = s.word := rfl
@[simp] theorem State.record_out : (s.record).out = s.out := rfl
@[simp] theorem State.record_ports : (s.record).ports = s.ports := rfl
@[simp] theorem State.record_code : (s.record).code = s.code := rfl
@[simp] theorem State.record_identity : (s.record).identity = s.identity := rfl
@[simp] theorem State.record_nameOf : (s.record).nameOf = s.nameOf := rfl
@[simp] theorem State.record_shortName : (s.record).shortName = s.shortName := rfl
@[simp] theorem State.record_vendorName : (s.record).vendorName = s.vendorName := rfl
@[simp] theorem State.record_name : (s.record).name = s.name := rfl
@[simp] theorem State.record_parsed : (s.record).parsed = s.parsed := rfl

@[simp] theorem State.presentCode_cfg (c : Byte) : (s.presentCode c).cfg = s.cfg := rfl
@[simp] theorem State.presentCode_inputs (c : Byte) : (s.presentCode c).inputs = s.inputs := rfl
@[simp] theorem State.presentCode_stream (c : Byte) : (s.presentCode c).stream = s.stream := rfl
@[simp] theorem State.presentCode_nextWord (c : Byte) : (s.presentCode c).nextWord = s.nextWord := rfl
@[simp] theorem State.presentCode_results (c : Byte) : (s.presentCode c).results = s.results := rfl
@[simp] theorem State.presentCode_odd (c : Byte) : (s.presentCode c).odd = s.odd := rfl
@[simp] theorem State.presentCode_suspended (c : Byte) : (s.presentCode c).suspended = s.suspended := rfl
@[simp] theorem State.presentCode_word (c : Byte) : (s.presentCode c).word = s.word := rfl
@[simp] theorem State.presentCode_out (c : Byte) : (s.presentCode c).out = s.out := rfl
@[simp] theorem State.presentCode_ports (c : Byte) : (s.presentCode c).ports = s.ports := rfl
@[simp] theorem State.presentCode_code (c : Byte) : (s.presentCode c).code = c := rfl
@[simp] theorem State.presentCode_identity (c : Byte) : (s.presentCode c).identity = resolve s.cfg.params c := rfl
@[simp] theorem State.presentCode_nameOf (c : Byte) : (s.presentCode c).nameOf = s.nameOf := rfl
@[simp] theorem State.presentCode_shortName (c : Byte) : (s.presentCode c).shortName = s.shortName := rfl
@[simp] theorem State.presentCode_vendorName (c : Byte) : (s.presentCode c).vendorName = s.vendorName := rfl
@[simp] theorem State.presentCode_name (c : Byte) : (s.presentCode c).name = s.name := rfl
@[simp] theorem State.presentCode_parsed (c : Byte) : (s.presentCode c).parsed = s.parsed := rfl

@[simp] theorem State.presentIdentity_cfg (id : Identity) : (s.presentIdentity id).cfg = s.cfg := rfl
@[simp] theorem State.presentIdentity_inputs (id : Identity) : (s.presentIdentity id).inputs = s.inputs := rfl
@[simp] theorem State.presentIdentity_stream (id : Identity) : (s.presentIdentity id).stream = s.stream := rfl
@[simp] theorem State.presentIdentity_nextWord (id : Identity) : (s.presentIdentity id).nextWord = s.nextWord := rfl
@[simp] theorem State.presentIdentity_results (id : Identity) : (s.presentIdentity id).results = s.results := rfl
@[simp] theorem State.presentIdentity_odd (id : Identity) : (s.presentIdentity id).odd = s.odd := rfl
@[simp] theorem State.presentIdentity_suspended (id : Identity) : (s.presentIdentity id).suspended = s.suspended := rfl
@[simp] theorem State.presentIdentity_word (id : Identity) : (s.presentIdentity id).word = s.word := rfl
@[simp] theorem State.presentIdentity_out (id : Identity) : (s.presentIdentity id).out = s.out := rfl
@[simp] theorem State.presentIdentity_ports (id : Identity) : (s.presentIdentity id).ports = s.ports := rfl
@[simp] theorem State.presentIdentity_code (id : Identity) : (s.presentIdentity id).code = s.code := rfl
@[simp] theorem State.presentIdentity_identity (id : Identity) : (s.presentIdentity id).identity = s.identity := rfl
@[simp] theorem State.presentIdentity_nameOf (id : Identity) : (s.presentIdentity id).nameOf = id := rfl
@[simp] theorem State.presentIdentity_shortName (id : Identity) : (s.presentIdentity id).shortName = renderShort s.cfg.params id := rfl
@[simp] theorem State.presentIdentity_vendorName (id : Identity) : (s.presentIdentity id).vendorName = renderVendor s.cfg.params id := rfl
@[simp] theorem State.presentIdentity_name (id : Identity) : (s.presentIdentity id).name = s.name := rfl
@[simp] theorem State.presentIdentity_parsed (id : Identity) : (s.presentIdentity id).parsed = s.parsed := rfl

@[simp] theorem State.presentName_cfg (n : Name) : (s.presentName n).cfg = s.cfg := rfl
@[simp] theorem State.presentName_inputs (n : Name) : (s.presentName n).inputs = s.inputs := rfl
@[simp] theorem State.presentName_stream (n : Name) : (s.presentName n).stream = s.stream := rfl
@[simp] theorem State.presentName_nextWord (n : Name) : (s.presentName n).nextWord = s.nextWord := rfl
@[simp] theorem State.presentName_results (n : Name) : (s.presentName n).results = s.results := rfl
@[simp] theorem State.presentName_odd (n : Name) : (s.presentName n).odd = s.odd := rfl
@[simp] theorem State.presentName_suspended (n : Name) : (s.presentName n).suspended = s.suspended := rfl
@[simp] theorem State.presentName_word (n : Name) : (s.presentName n).word = s.word := rfl
@[simp] theorem State.presentName_out (n : Name) : (s.presentName n).out = s.out := rfl
@[simp] theorem State.presentName_ports (n : Name) : (s.presentName n).ports = s.ports := rfl
@[simp] theorem State.presentName_code (n : Name) : (s.presentName n).code = s.code := rfl
@[simp] theorem State.presentName_identity (n : Name) : (s.presentName n).identity = s.identity := rfl
@[simp] theorem State.presentName_nameOf (n : Name) : (s.presentName n).nameOf = s.nameOf := rfl
@[simp] theorem State.presentName_shortName (n : Name) : (s.presentName n).shortName = s.shortName := rfl
@[simp] theorem State.presentName_vendorName (n : Name) : (s.presentName n).vendorName = s.vendorName := rfl
@[simp] theorem State.presentName_name (n : Name) : (s.presentName n).name = n := rfl
@[simp] theorem State.presentName_parsed (n : Name) : (s.presentName n).parsed = parseShort s.cfg.params n := rfl

@[simp] theorem State.presentStream_cfg (bytes : List Byte) : (s.presentStream bytes).cfg = s.cfg := rfl
@[simp] theorem State.presentStream_inputs (bytes : List Byte) : (s.presentStream bytes).inputs = s.inputs := rfl
@[simp] theorem State.presentStream_stream (bytes : List Byte) : (s.presentStream bytes).stream = bytes := rfl
@[simp] theorem State.presentStream_nextWord (bytes : List Byte) : (s.presentStream bytes).nextWord = 0 := rfl
@[simp] theorem State.presentStream_results (bytes : List Byte) : (s.presentStream bytes).results = [] := rfl
@[simp] theorem State.presentStream_odd (bytes : List Byte) : (s.presentStream bytes).odd = oddFlag bytes := rfl
@[simp] theorem State.presentStream_suspended (bytes : List Byte) : (s.presentStream bytes).suspended = s.runsToResume := rfl
@[simp] theorem State.presentStream_word (bytes : List Byte) : (s.presentStream bytes).word = s.word := rfl
@[simp] theorem State.presentStream_out (bytes : List Byte) : (s.presentStream bytes).out = s.out := rfl
@[simp] theorem State.presentStream_ports (bytes : List Byte) : (s.presentStream bytes).ports = s.ports := rfl
@[simp] theorem State.presentStream_code (bytes : List Byte) : (s.presentStream bytes).code = s.code := rfl
@[simp] theorem State.presentStream_identity (bytes : List Byte) : (s.presentStream bytes).identity = s.identity := rfl
@[simp] theorem State.presentStream_nameOf (bytes : List Byte) : (s.presentStream bytes).nameOf = s.nameOf := rfl
@[simp] theorem State.presentStream_shortName (bytes : List Byte) : (s.presentStream bytes).shortName = s.shortName := rfl
@[simp] theorem State.presentStream_vendorName (bytes : List Byte) : (s.presentStream bytes).vendorName = s.vendorName := rfl
@[simp] theorem State.presentStream_name (bytes : List Byte) : (s.presentStream bytes).name = s.name := rfl
@[simp] theorem State.presentStream_parsed (bytes : List Byte) : (s.presentStream bytes).parsed = s.parsed := rfl

@[simp] theorem State.resume_cfg (r : Run) (rest : List Run) : (s.resume r rest).cfg = s.cfg := rfl
@[simp] theorem State.resume_inputs (r : Run) (rest : List Run) : (s.resume r rest).inputs = s.inputs := rfl
@[simp] theorem State.resume_stream (r : Run) (rest : List Run) : (s.resume r rest).stream = r.stream := rfl
@[simp] theorem State.resume_nextWord (r : Run) (rest : List Run) : (s.resume r rest).nextWord = r.nextWord := rfl
@[simp] theorem State.resume_results (r : Run) (rest : List Run) : (s.resume r rest).results = r.results := rfl
@[simp] theorem State.resume_odd (r : Run) (rest : List Run) : (s.resume r rest).odd = r.odd := rfl
@[simp] theorem State.resume_suspended (r : Run) (rest : List Run) : (s.resume r rest).suspended = rest := rfl
@[simp] theorem State.resume_word (r : Run) (rest : List Run) : (s.resume r rest).word = s.word := rfl
@[simp] theorem State.resume_out (r : Run) (rest : List Run) : (s.resume r rest).out = s.out := rfl
@[simp] theorem State.resume_ports (r : Run) (rest : List Run) : (s.resume r rest).ports = s.ports := rfl
@[simp] theorem State.resume_code (r : Run) (rest : List Run) : (s.resume r rest).code = s.code := rfl
@[simp] theorem State.resume_identity (r : Run) (rest : List Run) : (s.resume r rest).identity = s.identity := rfl
@[simp] theorem State.resume_nameOf (r : Run) (rest : List Run) : (s.resume r rest).nameOf = s.nameOf := rfl
@[simp] theorem State.resume_shortName (r : Run) (rest : List Run) : (s.resume r rest).shortName = s.shortName := rfl
@[simp] theorem State.resume_vendorName (r : Run) (rest : List Run) : (s.resume r rest).vendorName = s.vendorName := rfl
@[simp] theorem State.resume_name (r : Run) (rest : List Run) : (s.resume r rest).name = s.name := rfl
@[simp] theorem State.resume_parsed (r : Run) (rest : List Run) : (s.resume r rest).parsed = s.parsed := rfl

theorem State.runsToResume_of_word {s : State} {w : Word} (h : wordAt s.stream s.nextWord = some w) :
    s.runsToResume = s.currentRun :: s.suspended := by
  simp [State.runsToResume, h]

theorem State.runsToResume_of_ended {s : State} (h : wordAt s.stream s.nextWord = none) :
    s.runsToResume = s.suspended := by
  simp [State.runsToResume, h]

end Sys2Proof.Machine
end

