-- ==== Sys2Proof/Laws/Step.lean ====
section
/-! SUPPORT. What a step and a meaning can do, said once: the step by what lies before it, and every meaning that emits by
one equation. -/

namespace Sys2Proof.Machine

/-- The next word of a stream, by its two bytes. -/
theorem wordAt_eq_some_iff {bytes : List Byte} {i : Nat} {w : Word} :
    wordAt bytes i = some w ↔ ∃ lo hi, bytes[2 * i]? = some lo ∧ bytes[2 * i + 1]? = some hi ∧ w = assemble lo hi := by
  unfold wordAt
  split
  · rename_i lo hi h0 h1
    rw [h0, h1]
    constructor
    · intro h
      exact ⟨lo, hi, rfl, rfl, (Option.some.inj h).symm⟩
    · rintro ⟨_, _, h2, h3, rfl⟩
      rw [Option.some.inj h2, Option.some.inj h3]
  · rename_i h1
    simp [h1]
  · rename_i h0
    simp [h0]

/-- A stream has a word at every word address below `L div 2` and at no other. -/
theorem wordAt_isSome {bytes : List Byte} {i : Nat} : (wordAt bytes i).isSome = true ↔ i < bytes.length / 2 := by
  rw [Option.isSome_iff_exists]
  simp only [wordAt_eq_some_iff, List.getElem?_eq_some_iff]
  constructor
  · rintro ⟨_, _, _, _, ⟨h, _⟩, _⟩
    omega
  · intro h
    exact ⟨_, _, _, ⟨by omega, rfl⟩, ⟨by omega, rfl⟩, rfl⟩

theorem activity_of_input {s : State} {x : Input} {rest : List Input} (hi : s.inputs = x :: rest) :
    s.activity = State.take x { s with inputs := rest } := by
  simp [State.activity, hi]

theorem activity_of_word {s : State} {w : Word} (hi : s.inputs = []) (h : wordAt s.stream s.nextWord = some w) :
    s.activity = .streamWord w := by
  simp [State.activity, State.runOn, h, hi]

theorem activity_of_suspended {s : State} {r : Run} {rest : List Run} (hi : s.inputs = [])
    (h : wordAt s.stream s.nextWord = none) (hs : s.suspended = r :: rest) :
    s.activity = .answered (.next (s.resume r rest)) := by
  simp [State.activity, State.runOn, h, hi, hs]

theorem activity_of_idle {s : State} (hi : s.inputs = []) (h : wordAt s.stream s.nextWord = none)
    (hs : s.suspended = []) : s.activity = .answered (.next s) := by
  simp [State.activity, State.runOn, h, hi, hs]

theorem step_of_activity_streamWord {s : State} {w : Word} (h : s.activity = .streamWord w) :
    step s = onNext State.record (exec (s.instructionOf w) (s.presentWord w)) := by
  simp [step, h]

theorem step_of_activity_portWord {s t : State} {w : Word} (h : s.activity = .portWord w t) :
    step s = exec (t.instructionOf w) (t.presentWord w) := by
  simp [step, h]

theorem step_of_activity_answered {s : State} {a : Answer} (h : s.activity = .answered a) : step s = a := by
  simp [step, h]

/-- Every instruction that a row can emit has the one meaning: its own variant and operands at the output (R9, R22). -/
theorem exec_eq_emit {i : Instr} {v : Variant} (h : i.variant = some v) (hv : v ≠ .unknown) (s : State) :
    exec i s = .next (s.emit i v i.operands) := by
  cases i <;> simp [Instr.variant] at h <;> subst h <;> first | rfl | exact absurd rfl hv

@[simp] theorem onNext_next (f : State → State) (t : State) : onNext f (.next t) = .next (f t) := rfl
@[simp] theorem onNext_refused (f : State → State) (r : Refusal) : onNext f (.refused r) = .refused r := rfl

theorem onNext_eq_next {f : State → State} {a : Answer} {t : State} (h : onNext f a = .next t) :
    ∃ u, a = .next u ∧ t = f u := by
  cases a with
  | next u =>
    refine ⟨u, rfl, ?_⟩
    simpa [onNext, eq_comm] using h
  | fault e => cases h
  | refused r => cases h

/-- Everything a meaning can answer with a next state: the emission of its own variant and operands, or the verdict. -/
theorem exec_eq_next {i : Instr} {s t : State} (h : exec i s = .next t) :
    (∃ v, i.variant = some v ∧ v ≠ .unknown ∧ t = s.emit i v i.operands) ∨ ∃ w, i = .unknown w ∧ t = s.emitNoMatch w := by
  by_cases hu : ∃ w, i = .unknown w
  · obtain ⟨w, rfl⟩ := hu
    have h : Host.Outcome.next (s.emitNoMatch w) = (.next t : Answer) := h
    cases h
    exact .inr ⟨w, rfl, rfl⟩
  · cases hv : i.variant with
    | none =>
      cases i <;> simp [Instr.variant] at hv
      cases h
    | some v =>
      have hne : v ≠ .unknown := by
        rintro rfl
        cases i <;> simp [Instr.variant] at hv
        exact hu ⟨_, rfl⟩
      rw [exec_eq_emit hv hne] at h
      cases h
      exact .inl ⟨v, rfl, hne, rfl⟩

/-- What runs for any word answers with a next state, in which the output port holds the word's decode. -/
theorem exec_substituted (p : Params) (w : Word) (s : State) : ∃ t, exec (decode p w).substituted s = .next t
    ∧ t.out = decode p w ∧ t.ports = flatPorts s.word (decode p w) ∧ s.SameButOutput t := by
  cases h : decode p w with
  | noMatch v => exact ⟨_, rfl, rfl, rfl, rfl⟩
  | ok i =>
    obtain ⟨_, r, _, _, _, _, _, hv⟩ := decode_ok_inversion h
    exact ⟨_, exec_eq_emit hv r.recipe.variant_ne_unknown s, rfl, by simp [flatPorts, hv], rfl⟩

/-- The runs to take up again once another stream is presented, by the place of the current one. -/
theorem State.runsToResume_eq (s : State) :
    s.runsToResume = if s.nextWord < s.stream.length / 2 then s.currentRun :: s.suspended else s.suspended := by
  split
  · rename_i h
    obtain ⟨w, hw⟩ := Option.isSome_iff_exists.mp (wordAt_isSome.mpr h)
    exact State.runsToResume_of_word hw
  · rename_i h
    refine State.runsToResume_of_ended (Option.not_isSome_iff_eq_none.mp fun hw => h (wordAt_isSome.mp hw))

/-- What runs for a word that is decoded from the state `s`, up to what the step records after it. -/
def DecodesTo (s : State) (w : Word) (t : State) : Prop :=
  (s.presentWord w).SameButOutput t ∧ t.out = decode s.cfg.params w ∧ t.ports = flatPorts w (decode s.cfg.params w)

/-- Everything a step can do (R59): take the host's next input, whatever run is in progress; with no input pending, decode
the run's next word, take up a suspended run, or nothing. -/
theorem step_cases (s : State) :
    (∃ x rest, s.inputs = x :: rest ∧
      let u : State := { s with inputs := rest }
      ((∃ w t, x = .word w ∧ DecodesTo u w t ∧ step s = .next t)
        ∨ (∃ c, x = .code c ∧ step s = .next (u.presentCode c))
        ∨ (∃ id, x = .identity id ∧ s.cfg.params.hasIdentity id = true ∧ step s = .next (u.presentIdentity id))
        ∨ (∃ id, x = .identity id ∧ s.cfg.params.hasIdentity id = false
            ∧ step s = .refused (.identityNotInConfiguration id))
        ∨ (∃ n, x = .name n ∧ step s = .next (u.presentName n))
        ∨ ∃ bytes, x = .stream bytes ∧ step s = .next (u.presentStream bytes)))
    ∨ (s.inputs = [] ∧
      ((∃ w t, wordAt s.stream s.nextWord = some w ∧ DecodesTo s w t ∧ step s = .next t.record)
        ∨ (∃ r rest, wordAt s.stream s.nextWord = none ∧ s.suspended = r :: rest ∧ step s = .next (s.resume r rest))
        ∨ wordAt s.stream s.nextWord = none ∧ s.suspended = [] ∧ step s = .next s)) := by
  cases hi : s.inputs with
  | cons x rest =>
    refine .inl ⟨x, rest, rfl, ?_⟩
    have ha := activity_of_input hi
    cases x with
    | word w =>
      obtain ⟨t, h1, h2, h3, h4⟩ :=
        exec_substituted s.cfg.params w (({ s with inputs := rest } : State).presentWord w)
      refine .inl ⟨w, t, rfl, ⟨h4, h2, h3⟩, ?_⟩
      rw [step_of_activity_portWord (ha.trans rfl)]
      exact h1
    | code c => exact .inr (.inl ⟨c, rfl, step_of_activity_answered (ha.trans rfl)⟩)
    | identity id =>
      refine .inr (.inr ?_)
      cases h : s.cfg.params.hasIdentity id with
      | true => exact .inl ⟨id, rfl, h, step_of_activity_answered (by simpa [State.take, h] using ha)⟩
      | false => exact .inr (.inl ⟨id, rfl, h, step_of_activity_answered (by simpa [State.take, h] using ha)⟩)
    | name n => exact .inr (.inr (.inr (.inr (.inl ⟨n, rfl, step_of_activity_answered (ha.trans rfl)⟩))))
    | stream bytes => exact .inr (.inr (.inr (.inr (.inr ⟨bytes, rfl, step_of_activity_answered (ha.trans rfl)⟩))))
  | nil =>
    refine .inr ⟨rfl, ?_⟩
    cases hw : wordAt s.stream s.nextWord with
    | some w =>
      obtain ⟨t, h1, h2, h3, h4⟩ := exec_substituted s.cfg.params w (s.presentWord w)
      refine .inl ⟨w, t, rfl, ⟨h4, h2, h3⟩, ?_⟩
      rw [step_of_activity_streamWord (activity_of_word hi hw), State.instructionOf, h1, onNext_next]
    | none =>
      cases hs : s.suspended with
      | cons r rest =>
        exact .inr (.inl ⟨r, rest, rfl, rfl, step_of_activity_answered (activity_of_suspended hi hw hs)⟩)
      | nil => exact .inr (.inr ⟨rfl, rfl, step_of_activity_answered (activity_of_idle hi hw hs)⟩)

@[simp] theorem words_length (bytes : List Byte) : (words bytes).length = bytes.length / 2 := by
  induction bytes using words.induct with
  | case1 lo hi rest ih =>
    simp only [words, List.length_cons, ih]
    omega
  | case2 => simp [words]
  | case3 => rfl

/-- The words of a stream by their word addresses (R53). -/
theorem words_getElem? (bytes : List Byte) (i : Nat) : (words bytes)[i]? = wordAt bytes i := by
  induction bytes using words.induct generalizing i with
  | case1 lo hi rest ih =>
    cases i with
    | zero => rfl
    | succ i =>
      simp only [words, List.getElem?_cons_succ, ih]
      unfold wordAt
      rw [show 2 * (i + 1) = 2 * i + 1 + 1 by omega]
      simp
  | case2 => cases i <;> simp [words, wordAt]
  | case3 => simp [words, wordAt]

end Sys2Proof.Machine
end

