-- ==== Sys2Proof/Laws/Table.lean ====
section
/-! SUPPORT. What an admitted table holds, row by row, what the encoder's search finds, and what the checks of the ROM
say (R243). -/

namespace Sys2Proof

theorem distinct_nodup {α : Type} [BEq α] [LawfulBEq α] : ∀ {l : List α}, distinct l = true → l.Nodup
  | [], _ => List.nodup_nil
  | x :: xs, h => by
    simp only [distinct, Bool.and_eq_true, Bool.not_eq_true', List.contains_eq_mem, decide_eq_false_iff_not] at h
    exact List.nodup_cons.mpr ⟨h.1, distinct_nodup h.2⟩

/-- What a row of an admitted table can be (R75, R81). -/
theorem Config.row_cases {c : Config} {r : Row} (hr : r ∈ c.params.rules) :
    r ∈ headRows
    ∨ (∃ a ∈ c.params.waitbRows, r = a.row (.waitB c.params.waitbFormat))
    ∨ r = c.params.pushAll.row (.none .pushAll) ∨ r = c.params.popAll.row (.none .popAll)
    ∨ (∃ e ∈ c.params.ctrlOps, r = e.pattern.row (.none (.ctrl e.name)))
    ∨ (∃ e ∈ c.params.sregOps, r = e.row)
    ∨ r = bitRow c.params.bitOpc.bitClear .bitClear ∨ r = bitRow c.params.bitOpc.bitSet .bitSet
    ∨ r = bitRow c.params.bitOpc.bitTest .bitTest
    ∨ r = routeRow c.params.routeClass.bitOut1 .bitOut1 ∨ r = routeRow c.params.routeClass.bitOut2 .bitOut2
    ∨ r = routeRow c.params.routeClass.bitIn1 .bitIn1 ∨ r = routeRow c.params.routeClass.bitIn2 .bitIn2
    ∨ (∃ e ∈ c.params.immOps, r = e.row)
    ∨ r = c.params.ct0.row .ct0 ∨ r = c.params.ct1.row .ct1 ∨ r = c.params.ct2.row .ct2 ∨ r = c.params.ct3.row .ct3 := by
  rcases Config.mem_rules.mp hr with h | h
  · exact .inl h
  · right
    simp only [Params.familyRows, List.mem_append, List.mem_map, List.mem_cons, List.not_mem_nil, or_false] at h
    simp only [eq_comm (b := r)] at h ⊢
    simpa only [or_assoc] using h

theorem SRegOp.row_recipe (e : SRegOp) : (e.form = .form8 ∧ e.row.recipe = .sreg8 e.name)
    ∨ (e.form = .form9 ∧ e.row.recipe = .sreg9 e.name) := by
  cases h : e.form <;> simp [SRegOp.row, Pattern.row, h]

/-- The destination bit of an admitted configuration (R141, R79). -/
theorem Config.destBit_bounds (c : Config) : 8 ≤ c.params.destBit ∧ c.params.destBit ≤ 15
    ∧ (c.params.usesSreg9 = true → 9 ≤ c.params.destBit) := by
  have h := c.families_checked.1
  simp only [Params.destBitOk, Bool.and_eq_true, decide_eq_true_eq, Bool.or_eq_true, Bool.not_eq_true'] at h
  refine ⟨h.1.1, h.1.2, fun hu => ?_⟩
  rcases h.2 with h2 | h2
  · rw [hu] at h2
    cases h2
  · exact h2

/-- The two row conditions of R73 and R74. -/
theorem Config.row_wellFormed {c : Config} {r : Row} (hr : r ∈ c.params.rules) :
    r.expected &&& ~~~r.mask = 0 ∧ r.mask &&& r.recipe.format.operandMask c.params.destBit = 0 := by
  simpa [Row.wellFormed] using c.rules_checked.2.1 r hr

/-- An operation of `IMM_OPS` has one entry (log entry 12). -/
theorem Config.immEntry_unique {c : Config} {e e' : ImmEntry} (he : e ∈ c.params.immOps) (he' : e' ∈ c.params.immOps)
    (h : e.op = e'.op) : e = e' := by
  have hc := c.families_checked.2.2.2.1
  simp only [Params.immOpsOk, Bool.and_eq_true] at hc
  exact List.inj_on_of_nodup_map (distinct_nodup hc.1.1) he he' h

/-- What the search answers: a word that is good and differs from `w` by set bits of `free` below bit `n` alone. -/
theorem searchFree_eq_some {free : Word} {good : Word → Bool} {n : Nat} {w v : Word}
    (h : searchFree free good n w = some v) :
    good v = true ∧ ∃ d : Word, (∀ j, d.getLsbD j = true → free.getLsbD j = true ∧ j < n) ∧ v = w ||| d := by
  induction n generalizing w with
  | zero =>
    simp only [searchFree] at h
    split at h
    · rename_i hg
      cases h
      exact ⟨hg, 0, by simp, by simp⟩
    · cases h
  | succ n ih =>
    simp only [searchFree] at h
    split at h
    · rename_i u hu
      cases h
      obtain ⟨h1, d, h2, h3⟩ := ih hu
      exact ⟨h1, d, fun j hj => ⟨(h2 j hj).1, Nat.lt_succ_of_lt (h2 j hj).2⟩, h3⟩
    · split at h
      · rename_i hf
        obtain ⟨h1, d, h2, h3⟩ := ih h
        refine ⟨h1, .twoPow 16 n ||| d, fun j hj => ?_, by rw [h3, BitVec.or_assoc]⟩
        rw [BitVec.getLsbD_or, Bool.or_eq_true] at hj
        rcases hj with hj | hj
        · simp only [BitVec.getLsbD_twoPow, Bool.and_eq_true, decide_eq_true_eq] at hj
          exact hj.2 ▸ ⟨hf, Nat.lt_succ_self n⟩
        · exact ⟨(h2 j hj).1, Nat.lt_succ_of_lt (h2 j hj).2⟩
      · cases h

theorem mem_allFields {n : Nat} (v : BitVec n) : v ∈ allFields n :=
  List.mem_map.mpr ⟨v.toFin, List.mem_finRange _, rfl⟩

/-- Every operand value stands in its shape's list. -/
theorem Operands.mem_allOperands (o : Operands) : o ∈ o.format.allOperands := by
  rcases o with _ | _ | ⟨_, d⟩ | ⟨_, d⟩ | _ | _ | _ | (_ | _ | _)
  all_goals simp [Operands.format, Label.width, Format.allOperands, mem_allFields]
  all_goals cases d <;> simp

/-- `SFR_LOW` of an admitted configuration (R31). -/
theorem Config.sfrLow_checked (c : Config) : c.params.sfrLow.length = 32 ∧ (c.params.sfrLow.filterMap id).Nodup
    ∧ (∀ s ∈ c.params.namedSet, some s ∈ c.params.sfrLow) ∧ ∀ s, some s ∈ c.params.sfrLow → s ∈ c.params.namedSet := by
  have h := c.romOk
  simp only [Params.romOk, Bool.and_eq_true, Params.sfrLowOk, List.all_eq_true, List.contains_eq_mem,
    decide_eq_true_eq, beq_iff_eq, List.mem_filterMap, id] at h
  obtain ⟨⟨⟨⟨h1, h2⟩, h3⟩, h4⟩, _⟩ := h
  exact ⟨h1, distinct_nodup h2, h3, fun s hs => h4 s ⟨_, hs, rfl⟩⟩

/-- The names of an admitted configuration (R33, R34). -/
theorem Config.names_checked (c : Config) :
    (∀ id ∈ c.params.validIdentities,
      goodText (renderShort c.params id) = true ∧ goodText (renderVendor c.params id) = true)
    ∧ (c.params.validIdentities.map (renderShort c.params)).Nodup
    ∧ (c.params.validIdentities.map (renderVendor c.params)).Nodup
    ∧ (∀ s ∈ c.params.namedSet, dataDigits (renderShort c.params (.named s)) = none)
    ∧ c.params.errorShort ∉ c.params.validIdentities.map (renderShort c.params)
    ∧ c.params.errorVendor ∉ c.params.validIdentities.map (renderVendor c.params)
    ∧ dataDigits c.params.errorShort = none := by
  have h := c.romOk
  simp only [Params.romOk, Bool.and_eq_true, Params.namesOk, List.all_eq_true, List.contains_eq_mem,
    Bool.not_eq_true', decide_eq_false_iff_not, Option.isNone_iff_eq_none] at h
  obtain ⟨_, ⟨⟨⟨⟨⟨⟨⟨h1, h2⟩, h3⟩, h4⟩, _⟩, _⟩, h7⟩, h8⟩, h9⟩ := h
  exact ⟨h1, distinct_nodup h2, distinct_nodup h3, h4, h7, h8, h9⟩

end Sys2Proof
end

