-- ==== Sys2Proof/Tests/Slice0.lean ====
section
/-! SUPPORT. Tests: the terms and configurations that the checks refuse, the spec's vectors (95_test_vectors), and a
witness for the hypotheses of each statement. Expected values are those of 95_test_vectors unless a comment says where
else they come from; EX1 is its illustrative configuration. -/

namespace Sys2Proof.Tests

open Sys2Proof Sys2Proof.Machine

/-- EX1 as an admitted configuration. -/
def ex1 : Config := ⟨Params.ex1, Params.ex1_admitted⟩

/-- The block of EX1 with nothing presented. -/
def still : State := State.powerUp ex1

/-- The block of EX1 with a stream presented. -/
def running (bytes : List Byte) : State := still.presentStream bytes

/-- The block of EX1 with one host input pending. -/
def given (x : Input) : State := { still with inputs := [x] }

/-- The block of EX1 in the middle of a run, at its word 0x00E7, with one host input pending. -/
def givenInRun (x : Input) : State := { running [0xE7, 0x00, 0x08, 0x00] with inputs := [x] }

/-- The state that an answer goes on to. -/
def nextOf : Answer → Option State
  | .next t => some t
  | .fault _ => none
  | .refused _ => none

/-- What one step on a host word drives. -/
def drivenBy (w : Word) : Option (DecodeOut × Ports) :=
  (nextOf (step (given (.word w)))).map fun t => (t.out, t.ports)

abbrev opA : Name := ['O', 'p', 'A']
abbrev opB : Name := ['O', 'p', 'B']
abbrev ctrlQ : Name := ['C', 't', 'r', 'l', 'Q']
abbrev immX : Name := ['I', 'm', 'm', 'X']

/-! WellFormed: one ill-formed term for each check, and the well-formed one beside it. -/

theorem test_wellFormed_ctrl : (Instr.ctrl ctrlQ).wellFormed Params.ex1 = true
    ∧ (Instr.ctrl opA).wellFormed Params.ex1 = false := by decide

theorem test_wellFormed_sregDirect : (Instr.sregDirect opA 0 .accumulator).wellFormed Params.ex1 = true
    ∧ (Instr.sregDirect opB 0 .accumulator).wellFormed Params.ex1 = false
    ∧ (Instr.sregDirect ctrlQ 0 .accumulator).wellFormed Params.ex1 = false := by decide

theorem test_wellFormed_sregExtended : (Instr.sregExtended opB 0 .accumulator).wellFormed Params.ex1 = true
    ∧ (Instr.sregExtended opA 0 .accumulator).wellFormed Params.ex1 = false := by decide

theorem test_wellFormed_waitB : (Instr.waitB .none).wellFormed Params.ex1 = true
    ∧ (Instr.waitB (.imm 0)).wellFormed Params.ex1 = false := by decide

theorem test_wellFormed_imm : (Instr.imm immX 0).wellFormed Params.ex1 = true
    ∧ (Instr.imm opA 0).wellFormed Params.ex1 = false := by decide

theorem test_wellFormed_ct : (Instr.ct0 (.label12 0)).wellFormed Params.ex1 = true
    ∧ (Instr.ct0 (.label10 0)).wellFormed Params.ex1 = false
    ∧ (Instr.ct1 (.label8 0)).wellFormed Params.ex1 = false
    ∧ (Instr.ct2 (.label12 0)).wellFormed Params.ex1 = false
    ∧ (Instr.ct3 (.label10 0)).wellFormed Params.ex1 = false := by decide

theorem test_wellFormed_movl : Instr.movl.wellFormed Params.ex1 = false := by decide

/-! Configurations that R243 refuses, each at its own check (70_reset_and_hazards R243; the rule named is the one
broken). -/

set_option maxRecDepth 20000 in
/-- R31 (a missing identity; an address twice), R34 (a marker that is a valid name), R33 and R207 (the numeric form, of the
marker too), R33 (no name). -/
theorem test_refused_at_rom :
    { Params.ex1 with sfrLow := List.replicate 32 none }.verdict = .refused .rom
    ∧ { Params.ex1 with sfrLow := Params.ex1.sfrLow.dropLast }.verdict = .refused .rom
    ∧ { Params.ex1 with sfrLow := Params.ex1.sfrLow.dropLast ++ [some NamedSfr.status] }.verdict = .refused .rom
    ∧ { Params.ex1 with errorShort := ['P', 'C'] }.verdict = .refused .rom
    ∧ { Params.ex1 with errorShort := ['D', '0', '5'] }.verdict = .refused .rom
    ∧ { Params.ex1 with errorVendor := [] }.verdict = .refused .rom
    ∧ { Params.ex1 with shortNames := (.timer1, ['D', '7', '7']) :: Params.ex1Names }.verdict = .refused .rom
    ∧ { Params.ex1 with vendorNames := [] }.verdict = .refused .rom := by
  decide +kernel

set_option maxRecDepth 20000 in
/-- R141 (range, and 9 with the 9-bit form), R160, R170, R180, R190, R191. -/
theorem test_refused_at_families :
    { Params.ex1 with destBit := 7 }.verdict = .refused .families
    ∧ { Params.ex1 with destBit := 8 }.verdict = .refused .families
    ∧ { Params.ex1 with destBit := 16 }.verdict = .refused .families
    ∧ { Params.ex1 with bitOpc := ⟨10, 11, 10⟩ }.verdict = .refused .families
    ∧ { Params.ex1 with routeClass := ⟨4, 5, 5, 7⟩ }.verdict = .refused .families
    ∧ { Params.ex1 with immOps := [⟨.moveImmToP1, 0x4A⟩, ⟨.moveImmToP2, 0x4B⟩] }.verdict = .refused .families
    ∧ { Params.ex1 with ct3 := ⟨.w10, ⟨0xFC00, 0x7400⟩⟩ }.verdict = .refused .families
    ∧ { Params.ex1 with ct2 := ⟨.w12, ⟨0xFC00, 0x7000⟩⟩ }.verdict = .refused .families := by
  decide +kernel

/-- EX1 with PushAll at another word: the parameter and its row together. -/
def pushAllAt (m e : Word) : Params :=
  { Params.ex1 with pushAll := ⟨m, e⟩, tail := ⟨m, e, .none .pushAll⟩ :: Params.ex1Tail.drop 1 }

set_option maxRecDepth 20000 in
/-- R81 (a family row missing), R183 (the order of the shared-byte rows), R78 (a shadowed PushAll), R73 (a match bit
outside the mask); beside them a PushAll word that is admitted. -/
theorem test_refused_at_rules :
    { Params.ex1 with tail := Params.ex1Tail.drop 1 }.verdict = .refused .rules
    ∧ { Params.ex1 with immPFirst := .p2 }.verdict = .refused .rules
    ∧ (pushAllAt 0xFFFF 0x0008).verdict = .refused .rules
    ∧ (pushAllAt 0xFFFE 0x0019).verdict = .refused .rules
    ∧ (pushAllAt 0xFFFF 0x0018).verdict = .admitted := by
  decide +kernel

/-- EX1 with the shared-byte rows swapped (95_test_vectors section 3.5). -/
def Params.ex1SecondFirst : Params :=
  { Params.ex1 with
    immPFirst := .p2
    tail := Params.ex1Tail.take 13 ++ [⟨0xFF00, 0x4A00, .imm8 .moveImmToP2⟩, ⟨0xFF00, 0x4A00, .imm8 .moveImmToP1⟩]
      ++ Params.ex1Tail.drop 15 }

set_option maxRecDepth 20000 in
theorem test_ex1SecondFirst_admitted : Params.ex1SecondFirst.verdict = .admitted := by
  decide +kernel

/-- EX1 with `WAITB_FORMAT = IMM8` at a high byte that EX1 leaves free (R124). -/
def Params.ex1WaitImm : Params :=
  { Params.ex1 with
    waitbFormat := .imm8
    waitbRows := [⟨0xFF00, 0x0200⟩]
    tail := ⟨0xFF00, 0x0200, .waitB .imm8⟩ :: (Params.ex1Tail.take 2 ++ Params.ex1Tail.drop 3) }

set_option maxRecDepth 20000 in
theorem test_ex1WaitImm_admitted : Params.ex1WaitImm.verdict = .admitted := by
  decide +kernel

def ex1SecondFirst : Config := ⟨Params.ex1SecondFirst, test_ex1SecondFirst_admitted⟩
def ex1WaitImm : Config := ⟨Params.ex1WaitImm, test_ex1WaitImm_admitted⟩

/-! Decoding: 95_test_vectors section 3, family by family. -/

/-- Every word of the list decodes as stated, under EX1. -/
def decodes (l : List (Word × DecodeOut)) : Bool :=
  l.all fun p => decode Params.ex1 p.1 == p.2

/-- C-1 to C-13. -/
theorem test_decode_control : decodes [(0x0000, .ok .nop), (0x0001, .noMatch 0x0001), (0x0007, .noMatch 0x0007),
    (0x0008, .ok .clearWatchDog), (0x0009, .noMatch 0x0009), (0x0108, .noMatch 0x0108), (0x000D, .ok (.sleep 1)),
    (0x000E, .ok (.sleep 2)), (0x0010, .ok .pushAll), (0x0011, .ok .popAll), (0x0012, .ok (.waitB .none)),
    (0x0013, .noMatch 0x0013), (0x00E7, .ok (.ctrl ctrlQ))] = true := by decide

/-- R-1 to R-10. -/
theorem test_decode_singleRegister : decodes [(0x1C25, .ok (.sregDirect opA 0x25 .accumulator)),
    (0x1E25, .ok (.sregDirect opA 0x25 .memoryOperand)), (0x1D25, .ok (.sregDirect opA 0x25 .accumulator)),
    (0x1FFF, .ok (.sregDirect opA 0xFF .memoryOperand)), (0x1C40, .ok (.sregDirect opA 0x40 .accumulator)),
    (0x2021, .ok (.sregExtended opB 0x021 .accumulator)), (0x2321, .ok (.sregExtended opB 0x121 .memoryOperand)),
    (0x2120, .ok (.sregExtended opB 0x120 .accumulator)), (0x23FF, .ok (.sregExtended opB 0x1FF .memoryOperand)),
    (0x2400, .noMatch 0x2400)] = true := by decide

/-- B-1 to B-10. -/
theorem test_decode_bitIndexed : decodes [(0x5000, .ok (.bitClear 0x00 0)), (0x5325, .ok (.bitClear 0x25 3)),
    (0x57FF, .ok (.bitClear 0xFF 7)), (0x5800, .ok (.bitSet 0x00 0)), (0x5FFF, .ok (.bitSet 0xFF 7)),
    (0x6000, .ok (.bitTest 0x00 0)), (0x6155, .ok (.bitTest 0x55 1)), (0x6305, .ok (.bitTest 0x05 3)),
    (0x67FF, .ok (.bitTest 0xFF 7)), (0x6800, .noMatch 0x6800)] = true := by decide

/-- T-1 to T-13. -/
theorem test_decode_bitRouting : decodes [(0x0080, .ok (.bitOut1 0 0)), (0x009D, .ok (.bitOut1 3 5)),
    (0x00A0, .ok (.bitOut2 0 0)), (0x00BF, .ok (.bitOut2 3 7)), (0x00CF, .ok (.bitIn1 1 7)), (0x00E0, .ok (.bitIn2 0 0)),
    (0x00E6, .ok (.bitIn2 0 6)), (0x00E7, .ok (.ctrl ctrlQ)), (0x00F2, .ok (.bitIn2 2 2)), (0x00FF, .ok (.bitIn2 3 7)),
    (0x0020, .noMatch 0x0020), (0x007F, .noMatch 0x007F), (0x0100, .noMatch 0x0100)] = true := by decide

/-- I-1 to I-7. -/
theorem test_decode_immediate : decodes [(0x4A00, .ok (.moveImmToP1 0x00)), (0x4A01, .ok (.moveImmToP1 0x01)),
    (0x4A7F, .ok (.moveImmToP1 0x7F)), (0x4AFF, .ok (.moveImmToP1 0xFF)), (0x4B00, .ok (.imm immX 0x00)),
    (0x4BFF, .ok (.imm immX 0xFF)), (0x6100, .ok (.bitTest 0x00 1))] = true := by decide

/-- The last paragraph of section 3.5. -/
theorem test_decode_immediate_secondFirst : decode Params.ex1SecondFirst 0x4A00 = .ok (.moveImmToP2 0x00)
    ∧ decode Params.ex1SecondFirst 0x4A01 = .ok (.moveImmToP2 0x01)
    ∧ decode Params.ex1SecondFirst 0x4AFF = .ok (.moveImmToP2 0xFF) := by decide

/-- R124: the wait instruction with an immediate operand. -/
theorem test_decode_waitB_operand : decode Params.ex1WaitImm 0x0200 = .ok (.waitB (.imm 0x00))
    ∧ decode Params.ex1WaitImm 0x02A5 = .ok (.waitB (.imm 0xA5)) := by decide

/-- J-1 to J-16. -/
theorem test_decode_controlTransfer : decodes [(0x8000, .ok (.ct0 (.label12 0))), (0x8005, .ok (.ct0 (.label12 5))),
    (0x8FFF, .ok (.ct0 (.label12 4095))), (0x9000, .ok (.ct1 (.label12 0))), (0x9FFF, .ok (.ct1 (.label12 4095))),
    (0x7000, .ok (.ct2 (.label10 0))), (0x7005, .ok (.ct2 (.label10 5))), (0x73FF, .ok (.ct2 (.label10 1023))),
    (0x7400, .ok (.ct3 (.label8 0))), (0x7405, .ok (.ct3 (.label8 5))), (0x7505, .ok (.ct3 (.label8 5))),
    (0x75FF, .ok (.ct3 (.label8 255))), (0x7600, .noMatch 0x7600), (0x3000, .noMatch 0x3000), (0xA000, .noMatch 0xA000),
    (0xFFFF, .noMatch 0xFFFF)] = true := by decide

/-- S9: the label text at the three widths. -/
theorem test_label_text : (Label.label8 5).text = ['.', 'L', '5'] ∧ (Label.label10 5).text = ['.', 'L', '5']
    ∧ (Label.label12 5).text = ['.', 'L', '5'] ∧ (Label.label12 4095).text = ['.', 'L', '4', '0', '9', '5'] := by decide

/-- Section 2.1: no word gives `BitIn2(0, 7)`, `ImmY` is shadowed, and a third route instruction has its word. -/
theorem test_encode_shadowed : encode Params.ex1 (.bitIn2 0 7) = none
    ∧ encode Params.ex1 (.imm ['I', 'm', 'm', 'Y'] 0x55) = none ∧ encode Params.ex1 (.moveImmToP2 1) = none
    ∧ encode Params.ex1 (.bitIn2 2 2) = some 0x00F2 ∧ encode Params.ex1 .movl = none := by decide +kernel

/-- The flat port forms of R-7 and B-2. -/
theorem test_ports_operands :
    drivenBy 0x2321 = some (.ok (.sregExtended opB 0x121 .memoryOperand),
      { tag := some (.sreg opB), raw := 0x2321, f8 := 0x21, f9 := 0x121, form9 := 1, dest := 1 })
    ∧ drivenBy 0x5325 = some (.ok (.bitClear 0x25 3),
      { tag := some .bitClear, raw := 0x5325, f8 := 0x25, bit3 := 3 }) := by decide +kernel

/-- The flat port forms of J-11 and J-16. -/
theorem test_ports_label_and_noMatch :
    drivenBy 0x7505 = some (.ok (.ct3 (.label8 5)),
      { tag := some (.ct .ct3), raw := 0x7505, label := 0x005, labelW := 0 })
    ∧ drivenBy 0xFFFF = some (.noMatch 0xFFFF, { noMatch := 1, raw := 0xFFFF }) := by decide +kernel

/-- R229: a lookup made in the middle of a run is answered by the next step, and the run stands where it was. -/
theorem test_lookup_in_run : (nextOf (step (givenInRun (.code 0x3F)))).map (fun t => (t.identity, t.nextWord, t.inputs))
    = some (.data 31, 0, []) := by decide +kernel

/-- R59: a stream presented in the middle of a run begins at once and suspends the run, which is taken up again where it
was when the other has ended. -/
theorem test_stream_over_run :
    (nextOf (step (givenInRun (.stream [0x08])))).map (fun t => (t.stream, t.odd, t.suspended))
      = some ([0x08], true, [(running [0xE7, 0x00, 0x08, 0x00]).currentRun])
    ∧ (((nextOf (step (givenInRun (.stream [0x08])))).bind fun t => nextOf (step t)).map State.currentRun)
      = some (running [0xE7, 0x00, 0x08, 0x00]).currentRun := by decide +kernel

/-! The ROM: M-1 to M-25. -/

theorem test_resolve : (resolve Params.ex1 0x20 = .data 0) ∧ resolve Params.ex1 0x2A = .data 10
    ∧ resolve Params.ex1 0x3F = .data 31 ∧ resolve Params.ex1 0x40 = .error ∧ resolve Params.ex1 0xFE = .error
    ∧ resolve Params.ex1 0xFF = .error ∧ resolve Params.ex1 (RegRef.extended 0x120).norm = .data 0
    ∧ resolve Params.ex1 (RegRef.extended 0x1FF).norm = .error ∧ resolve Params.ex1 0x00 = .named .programCounter
    ∧ resolve Params.ex1 0x01 = .named .status ∧ resolve Params.ex1 0x10 = .named .dataExch
    ∧ resolve Params.ex1 0x11 = .error ∧ resolve Params.ex1 0x1F = .error := by decide

theorem test_names : renderShort Params.ex1 (.data 10) = ['D', '1', '0']
    ∧ renderVendor Params.ex1 (.data 10) = "SFR_DATA_REG10".toList
    ∧ renderVendor Params.ex1 (.named .programCounter) = "SFR_PRG_COUNT".toList
    ∧ renderShort Params.ex1 .error = "?ERR".toList ∧ renderVendor Params.ex1 .error = "SFR_ERROR".toList := by
  decide +kernel

theorem test_parseShort : parseShort Params.ex1 ['P', 'C'] = some (.named .programCounter)
    ∧ parseShort Params.ex1 ['S', 'R'] = some (.named .status) ∧ parseShort Params.ex1 ['D', '0'] = some (.data 0)
    ∧ parseShort Params.ex1 ['D', '3', '1'] = some (.data 31) ∧ parseShort Params.ex1 ['D', '3', '2'] = none
    ∧ parseShort Params.ex1 ['D', '0', '5'] = some (.data 5) ∧ parseShort Params.ex1 ['D'] = none
    ∧ parseShort Params.ex1 ['d', '0'] = none ∧ parseShort Params.ex1 ['p', 'c'] = none
    ∧ parseShort Params.ex1 [] = none ∧ parseShort Params.ex1 ['D', '+', '1'] = none
    ∧ parseShort Params.ex1 ['?', 'E', 'R', 'R'] = none := by decide +kernel

/-! The front end and the bit-fields: W-1 to W-6, F-1 to F-12. -/

theorem test_words : words [] = [] ∧ words [0x08] = [] ∧ words [0x08, 0x00] = [0x0008] ∧ words [0x00, 0x08] = [0x0800]
    ∧ words [0x25, 0x1E, 0x0C] = [0x1E25] ∧ words [0xFF, 0xFF, 0xFF, 0xFF] = [0xFFFF, 0xFFFF]
    ∧ oddFlag [] = false ∧ oddFlag [0x08] = true ∧ oddFlag [0x08, 0x00] = false
    ∧ oddFlag [0x25, 0x1E, 0x0C] = true := by decide

theorem test_fields : newField 2 3 = some 3 ∧ newField 2 4 = none ∧ newField 3 7 = some 7 ∧ newField 3 8 = none
    ∧ newField 7 127 = some 127 ∧ newField 7 128 = none ∧ newField 8 255 = some 255 ∧ newField 8 256 = none
    ∧ newField 9 511 = some 511 ∧ newField 9 512 = none ∧ newField 10 1023 = some 1023 ∧ newField 10 1024 = none
    ∧ newField 12 4095 = some 4095 ∧ newField 12 4096 = none ∧ field 2 0x000F = 3 ∧ field 8 0x1E25 = 0x25
    ∧ field 9 0x2321 = 0x121 ∧ field 12 0xFFFF = 4095 ∧ field 8 0x7505 = 5 := by decide

/-- P3: the outputs and the odd flag. -/
theorem test_stream_of_P3 : (words [0x12, 0x00, 0xE7, 0x00, 0x00, 0x76, 0xFF]).map (decode Params.ex1)
      = [.ok (.waitB .none), .ok (.ctrl ctrlQ), .noMatch 0x7600]
    ∧ streamVerdict [0x12, 0x00, 0xE7, 0x00, 0x00, 0x76, 0xFF] = some .oddLength := by decide

/-- P4: the register identities of its first four words. -/
theorem test_registers_of_P4 : (Instr.sregDirect opA 0x40 .accumulator).registerIdentity Params.ex1 = some .error
    ∧ (Instr.sregExtended opB 0x120 .accumulator).registerIdentity Params.ex1 = some (.data 0)
    ∧ (Instr.bitClear 0xFF 7).registerIdentity Params.ex1 = some .error
    ∧ (Instr.bitTest 0x55 1).registerIdentity Params.ex1 = some .error
    ∧ Instr.pushAll.registerIdentity Params.ex1 = none := by decide

/-- The first three words of the source under the block that reset starts, whatever its configuration (S1, S2, S4). -/
theorem test_placed_word_from_reset : decodeTableWord 16 0x0000 = some .nop
    ∧ decodeTableWord 16 0x0008 = some .clearWatchDog ∧ decodeTableWord 16 0x000F = some (.sleep 3)
    ∧ (nextOf (step (State.reset.withFetchWord 16 0x000F))).map (·.out) = some (.ok (.sleep 3)) :=
  ⟨rfl, rfl, rfl, rfl⟩

/-! Witnesses: for each statement with hypotheses, a state and operands that meet them, one for each clause. -/

/-- The word reaches row `k` of the table, which is `r`: the three hypotheses that the row statements share. -/
abbrev Reaches (c : Config) (k : Nat) (r : Row) (w : Word) : Prop :=
  c.params.rules = c.params.rules.take k ++ r :: c.params.rules.drop (k + 1)
    ∧ (∀ q ∈ c.params.rules.take k, w &&& q.mask ≠ q.expected) ∧ w &&& r.mask = r.expected

/-- Row 6 before row 10, on the word where they overlap. -/
theorem test_witness_FirstMatchingRowDecides : Reaches ex1 6 ⟨0xFFFF, 0x00E7, .none (.ctrl ctrlQ)⟩ 0x00E7 := by
  decide +kernel

/-- Both sides: a word that no row matches, and one that a row does. -/
theorem test_witness_NoMatchExactlyWhereNoRowMatches :
    (∀ r ∈ ex1.params.rules, (0x2400 : Word) &&& r.mask ≠ r.expected)
    ∧ ¬∀ r ∈ ex1.params.rules, (0x23FF : Word) &&& r.mask ≠ r.expected := by decide +kernel

theorem test_witness_ControlRowsDecode : Reaches ex1 3 ⟨0xFFFF, 0x0010, .none .pushAll⟩ 0x0010
    ∧ Reaches ex1 4 ⟨0xFFFF, 0x0011, .none .popAll⟩ 0x0011
    ∧ Reaches ex1 6 ⟨0xFFFF, 0x00E7, .none (.ctrl ctrlQ)⟩ 0x00E7
    ∧ Reaches ex1 5 ⟨0xFFFF, 0x0012, .waitB .none⟩ 0x0012
    ∧ Reaches ex1WaitImm 3 ⟨0xFF00, 0x0200, .waitB .imm8⟩ 0x02FF := by decide +kernel

theorem test_witness_SingleRegisterRowsDecode : Reaches ex1 11 ⟨0xFC00, 0x1C00, .sreg8 opA⟩ 0x1FFF
    ∧ Reaches ex1 12 ⟨0xFC00, 0x2000, .sreg9 opB⟩ 0x23FF := by decide +kernel

/-- Each prefix at the highest word of its row. -/
theorem test_witness_BitIndexedRowsDecode :
    (Reaches ex1 13 ⟨0xF800, 0x5000, .bitidx .bitClear⟩ 0x57FF
      ∧ (0x57FF : Word) &&& 0xF800 = ex1.params.bitOpc.bitClear.setWidth 16 <<< 11)
    ∧ (Reaches ex1 14 ⟨0xF800, 0x5800, .bitidx .bitSet⟩ 0x5FFF
      ∧ (0x5FFF : Word) &&& 0xF800 = ex1.params.bitOpc.bitSet.setWidth 16 <<< 11)
    ∧ (Reaches ex1 15 ⟨0xF800, 0x6000, .bitidx .bitTest⟩ 0x67FF
      ∧ (0x67FF : Word) &&& 0xF800 = ex1.params.bitOpc.bitTest.setWidth 16 <<< 11) := by decide +kernel

/-- Each class at the highest word of its row; for `BitIn2` that is above the word that row 6 takes. -/
theorem test_witness_RoutingRowsDecode :
    (Reaches ex1 7 ⟨0xFFE0, 0x0080, .route .bitOut1⟩ 0x009F
      ∧ (0x009F : Word) &&& 0xFFE0 = ex1.params.routeClass.bitOut1.setWidth 16 <<< 5)
    ∧ (Reaches ex1 8 ⟨0xFFE0, 0x00A0, .route .bitOut2⟩ 0x00BF
      ∧ (0x00BF : Word) &&& 0xFFE0 = ex1.params.routeClass.bitOut2.setWidth 16 <<< 5)
    ∧ (Reaches ex1 9 ⟨0xFFE0, 0x00C0, .route .bitIn1⟩ 0x00DF
      ∧ (0x00DF : Word) &&& 0xFFE0 = ex1.params.routeClass.bitIn1.setWidth 16 <<< 5)
    ∧ (Reaches ex1 10 ⟨0xFFE0, 0x00E0, .route .bitIn2⟩ 0x00FF
      ∧ (0x00FF : Word) &&& 0xFFE0 = ex1.params.routeClass.bitIn2.setWidth 16 <<< 5) := by decide +kernel

theorem test_witness_ImmediateRowsTestTheWholeHighByte :
    (⟨0xFF00, 0x4A00, .imm8 .moveImmToP2⟩ : Row) ∈ ex1.params.rules
    ∧ (⟨0xFF00, 0x6100, .imm8 (.other ['I', 'm', 'm', 'Y'])⟩ : Row) ∈ ex1.params.rules := by decide +kernel

theorem test_witness_ImmediateRowsDecode :
    (Reaches ex1 16 ⟨0xFF00, 0x4A00, .imm8 .moveImmToP1⟩ 0x4AFF
      ∧ (⟨.moveImmToP1, 0x4A⟩ : ImmEntry) ∈ ex1.params.immOps ∧ (0x4AFF : Word).extractLsb' 8 8 = 0x4A)
    ∧ (Reaches ex1SecondFirst 16 ⟨0xFF00, 0x4A00, .imm8 .moveImmToP2⟩ 0x4A00
      ∧ (⟨.moveImmToP2, 0x4A⟩ : ImmEntry) ∈ ex1SecondFirst.params.immOps ∧ (0x4A00 : Word).extractLsb' 8 8 = 0x4A)
    ∧ (Reaches ex1 18 ⟨0xFF00, 0x4B00, .imm8 (.other immX)⟩ 0x4BFF
      ∧ (⟨.other immX, 0x4B⟩ : ImmEntry) ∈ ex1.params.immOps ∧ (0x4BFF : Word).extractLsb' 8 8 = 0x4B) := by
  decide +kernel

/-- Each prefix at the highest word of its row. -/
theorem test_witness_ControlTransferRowsDecode :
    (Reaches ex1 20 ⟨0xF000, 0x8000, .label .w12 .ct0⟩ 0x8FFF
      ∧ (0x8FFF : Word) &&& ex1.params.ct0.pattern.mask = ex1.params.ct0.pattern.expected)
    ∧ (Reaches ex1 21 ⟨0xF000, 0x9000, .label .w12 .ct1⟩ 0x9FFF
      ∧ (0x9FFF : Word) &&& ex1.params.ct1.pattern.mask = ex1.params.ct1.pattern.expected)
    ∧ (Reaches ex1 22 ⟨0xFC00, 0x7000, .label .w10 .ct2⟩ 0x73FF
      ∧ (0x73FF : Word) &&& ex1.params.ct2.pattern.mask = ex1.params.ct2.pattern.expected)
    ∧ (Reaches ex1 23 ⟨0xFE00, 0x7400, .label .w8 .ct3⟩ 0x75FF
      ∧ (0x75FF : Word) &&& ex1.params.ct3.pattern.mask = ex1.params.ct3.pattern.expected) := by decide +kernel

theorem test_witness_LaterMoveImmediateIsNeverEmitted :
    ex1.params.immPFirst = .p1 ∧ ex1SecondFirst.params.immPFirst = .p2 := ⟨rfl, rfl⟩

/-- A row of the table and two words that differ in its operand bits alone, the destination bit 9 among them. -/
theorem test_witness_OperandBitsDoNotDecideMatching :
    (⟨0xFC00, 0x1C00, .sreg8 opA⟩ : Row) ∈ ex1.params.rules ∧ ex1.params.destBit = 9
    ∧ ∀ k, ¬(k ≤ 7 ∨ k = 9) → (0x1C00 : Word).getLsbD k = (0x1EFF : Word).getLsbD k := by
  refine ⟨by decide +kernel, rfl, fun k hk => ?_⟩
  by_cases h : k < 16
  · revert hk
    revert k
    decide
  · rw [BitVec.getLsbD_of_ge _ _ (by omega), BitVec.getLsbD_of_ge _ _ (by omega)]

/-- An operation of `IMM_OPS` and one that is none; rows of the list parameters. -/
theorem test_witness_FamilyRowsStandOnce : (⟨.moveImmToP2, 0x4A⟩ : ImmEntry) ∈ ex1.params.immOps
    ∧ (∀ e ∈ ex1.params.immOps, e.op ≠ .other opA)
    ∧ (ex1.params.sregOps.filter fun e => e.name = opB) = [⟨opB, ⟨0xFC00, 0x2000⟩, .form9⟩] := by decide +kernel

theorem test_witness_EncodableVariantsAreProduced : (⟨ctrlQ, ⟨0xFFFF, 0x00E7⟩⟩ : CtrlOp) ∈ ex1.params.ctrlOps
    ∧ Operands.none.format = ex1.params.waitbFormat
    ∧ (Operands.imm 0xFF).format = ex1WaitImm.params.waitbFormat := by decide +kernel

/-- Rows 6 and 10 meet, rows 6 and 7 do not (section 2.1). -/
theorem test_witness_OverlapOfTwoRows :
    let ctrl : Row := ⟨0xFFFF, 0x00E7, .none (.ctrl ctrlQ)⟩
    let in2 : Row := ⟨0xFFE0, 0x00E0, .route .bitIn2⟩
    let out1 : Row := ⟨0xFFE0, 0x0080, .route .bitOut1⟩
    ctrl ∈ ex1.params.rules ∧ in2 ∈ ex1.params.rules ∧ out1 ∈ ex1.params.rules
    ∧ (ctrl.expected ^^^ in2.expected) &&& ctrl.mask &&& in2.mask = 0
    ∧ (ctrl.expected ^^^ out1.expected) &&& ctrl.mask &&& out1.mask ≠ 0 := by decide +kernel

theorem test_witness_DecodedInstructionsAreWellFormed :
    decode ex1.params 0x7505 = .ok (.ct3 (.label8 5)) := by decide +kernel

/-- EX1 with `WAITB_FORMAT = BITIDX` at a class of words that EX1 leaves free (R124). -/
def Params.ex1WaitBit : Params :=
  { Params.ex1 with
    waitbFormat := .bitidx
    waitbRows := [⟨0xF800, 0x2800⟩]
    tail := ⟨0xF800, 0x2800, .waitB .bitidx⟩ :: (Params.ex1Tail.take 2 ++ Params.ex1Tail.drop 3) }

set_option maxRecDepth 20000 in
theorem test_ex1WaitBit_admitted : Params.ex1WaitBit.verdict = .admitted := by
  decide +kernel

/-- One word of each kind: SReg in both forms, a bit-indexed one, one without a register operand, and a WaitB with one. -/
theorem test_witness_DecodedRegisterIsTheLowByte :
    decode ex1.params 0x1FFF = .ok (.sregDirect opA 0xFF .memoryOperand)
    ∧ (decode ex1.params 0x23FF = .ok (.sregExtended opB 0x1FF .memoryOperand)
      ∧ (Instr.sregExtended opB 0x1FF .memoryOperand).operands.regRef = some (.extended 0x1FF))
    ∧ (decode ex1.params 0x6000 = .ok (.bitTest 0x00 0)
      ∧ (Instr.bitTest 0x00 0).operands.regRef = some (.direct 0x00))
    ∧ decode ex1.params 0x009D = .ok (.bitOut1 3 5)
    ∧ decode Params.ex1WaitBit 0x2F21 = .ok (.waitB (.bit 0x21 7)) := by decide +kernel

/-- One instruction of each family, the word with an ignored bit clear among them. -/
theorem test_witness_DecodeOfEncode : encode ex1.params (.sregExtended opB 0x1FF .memoryOperand) = some 0x23FF
    ∧ encode ex1.params (.sleep 3) = some 0x000F ∧ encode ex1.params (.bitSet 0xFF 7) = some 0x5FFF
    ∧ encode ex1.params (.bitOut1 3 5) = some 0x009D ∧ encode ex1.params (.imm immX 0xFF) = some 0x4BFF
    ∧ encode ex1.params (.ct3 (.label8 255)) = some 0x74FF := by decide +kernel

/-- One parameter set for each clause of the first part, the last EX1; and a row for the second part. -/
theorem test_witness_ConfigurationChecksInOrder :
    { Params.ex1 with vendorNames := [] }.romOk = false
    ∧ ({ Params.ex1 with destBit := 8 }.romOk = true ∧ { Params.ex1 with destBit := 8 }.familiesOk = false)
    ∧ ({ Params.ex1 with immPFirst := .p2 }.romOk = true ∧ { Params.ex1 with immPFirst := .p2 }.familiesOk = true
      ∧ { Params.ex1 with immPFirst := .p2 }.rulesOk = false)
    ∧ (Params.ex1.romOk = true ∧ Params.ex1.familiesOk = true ∧ Params.ex1.rulesOk = true)
    ∧ (⟨0xFE00, 0x7400, .label .w8 .ct3⟩ : Row) ∈ ex1.params.rules := by decide +kernel

/-- The greatest value that fits and the least that does not. -/
theorem test_witness_BitFieldConstructors : 4095 < 2 ^ 12 ∧ 2 ^ 12 ≤ 4096 := by decide

/-- The address clauses at their bounds; no address meets two of them. -/
theorem test_witness_ResolveByAddress : 0x40 ≤ (0x40 : Byte).toNat ∧ 0x40 ≤ (0xFF : Byte).toNat
    ∧ (0x00 : Byte).toNat ≤ 0x1F ∧ (0x1F : Byte).toNat ≤ 0x1F ∧ (0x20 : Byte).toNat = 0x20 + (0 : Fin 32).val
    ∧ (0x3F : Byte).toNat = 0x20 + (31 : Fin 32).val := by decide

theorem test_witness_NamedIdentitiesHaveOneAddress : NamedSfr.programCounter ∈ ex1.params.namedSet
    ∧ NamedSfr.dataExch ∈ ex1.params.namedSet ∧ resolve ex1.params 0x10 = .named .dataExch := by decide

theorem test_witness_ExtendedCodeResolvesByItsLowByte : (0x1FF : BitVec 9).toNat % 256 = (0xFF : BitVec 8).toNat
    ∧ (0x0FF : BitVec 9).toNat % 256 = (0xFF : BitVec 8).toNat := by decide

theorem test_witness_NamesAreInjective : Identity.data 31 ∈ ex1.params.validIdentities
    ∧ Identity.named .status ∈ ex1.params.validIdentities := by decide

theorem test_witness_ParseShortInvertsRenderShort : Identity.data 0 ∈ ex1.params.validIdentities
    ∧ Identity.named .dataExch ∈ ex1.params.validIdentities := by decide

/-- 31, 32 and a leading zero. -/
theorem test_witness_ParseShortNumericPath : (∀ ch ∈ ['3', '1'], '0' ≤ ch ∧ ch ≤ '9')
    ∧ (∀ ch ∈ ['3', '2'], '0' ≤ ch ∧ ch ≤ '9') ∧ (∀ ch ∈ ['0', '5'], '0' ≤ ch ∧ ch ≤ '9')
    ∧ digitsValue ['3', '1'] < 32 ∧ 32 ≤ digitsValue ['3', '2'] ∧ digitsValue ['0', '5'] < 32 :=
  ⟨by simp, by simp, by simp, by decide, by decide, by decide⟩

theorem test_witness_ParseShortAnswersValidIdentities :
    parseShort ex1.params ['D', '0', '5'] = some (.data 5) := by decide +kernel

theorem test_witness_WordsAreLittleEndian : ([0x25, 0x1E, 0x0C] : List Byte)[2 * 0]? = some 0x25
    ∧ ([0x25, 0x1E, 0x0C] : List Byte)[2 * 0 + 1]? = some 0x1E := by decide

theorem test_witness_WordCountAndOddFlag : ([] : List Byte).length % 2 = 0
    ∧ ([0x08, 0x00] : List Byte).length % 2 = 0 := by decide

/-- Both shapes of the next state: an emission and the verdict. -/
theorem test_witness_MeaningsChangeOnlyTheOutput : (∃ t, exec (.bitOut1 3 5) still = .next t)
    ∧ ∃ t, exec (.unknown 0xFFFF) still = .next t := ⟨⟨_, rfl⟩, _, rfl⟩

theorem test_witness_SignalsOutsideTheirColumnAreZero : (∃ t, exec (.bitClear 0x25 3) still = .next t)
    ∧ ∃ t, exec (.ct3 (.label8 5)) still = .next t := ⟨⟨_, rfl⟩, _, rfl⟩

/-- The stream clause at its last word, and the host's word in the middle of a run. -/
theorem test_witness_StepRunsTheDecodedInstruction :
    ((running [0x25, 0x53]).inputs = []
      ∧ (running [0x25, 0x53]).stream[2 * (running [0x25, 0x53]).nextWord]? = some 0x25
      ∧ (running [0x25, 0x53]).stream[2 * (running [0x25, 0x53]).nextWord + 1]? = some 0x53
      ∧ decode (running [0x25, 0x53]).cfg.params ((0x53 : Byte) ++ (0x25 : Byte)) = .ok (.bitClear 0x25 3)
      ∧ ∃ t, exec (.bitClear 0x25 3) { running [0x25, 0x53] with word := (0x53 : Byte) ++ (0x25 : Byte) } = .next t)
    ∧ ((givenInRun (.word 0x00E7)).inputs = .word 0x00E7 :: []
      ∧ decode (givenInRun (.word 0x00E7)).cfg.params 0x00E7 = .ok (.ctrl ctrlQ)) :=
  ⟨⟨rfl, rfl, rfl, by decide +kernel, _, rfl⟩, rfl, by decide +kernel⟩

theorem test_witness_UnmatchedWordDoesNotStop :
    ((running [0x00, 0x76]).inputs = []
      ∧ (running [0x00, 0x76]).stream[2 * (running [0x00, 0x76]).nextWord]? = some 0x00
      ∧ (running [0x00, 0x76]).stream[2 * (running [0x00, 0x76]).nextWord + 1]? = some 0x76
      ∧ ∀ r ∈ (running [0x00, 0x76]).cfg.params.rules,
          ((0x76 : Byte) ++ (0x00 : Byte) : Word) &&& r.mask ≠ r.expected)
    ∧ (givenInRun (.word 0x7600)).inputs = .word 0x7600 :: []
    ∧ ∀ r ∈ (givenInRun (.word 0x7600)).cfg.params.rules, (0x7600 : Word) &&& r.mask ≠ r.expected :=
  ⟨⟨rfl, rfl, rfl, by decide +kernel⟩, rfl, by decide +kernel⟩

/-- One input of each kind, and the marker identity beside a valid one; with a run in progress and with none. -/
theorem test_witness_OtherInputsAreAnswered : (givenInRun (.code 0x3F)).inputs = .code 0x3F :: []
    ∧ (given (.identity .error)).inputs = .identity .error :: []
    ∧ Identity.named .dataExch ∈ (givenInRun (.identity (.named .dataExch))).cfg.params.validIdentities
    ∧ (given (.name ['D', '0'])).inputs = .name ['D', '0'] :: []
    ∧ (given (.stream [0x08])).inputs = .stream [0x08] :: []
    ∧ (givenInRun (.stream [0x08])).inputs = .stream [0x08] :: []
    ∧ (given (.stream [0x08])).nextWord = (given (.stream [0x08])).stream.length / 2
    ∧ (givenInRun (.stream [0x08])).nextWord < (givenInRun (.stream [0x08])).stream.length / 2 :=
  ⟨rfl, rfl, by decide, rfl, rfl, rfl, rfl, by decide⟩

/-- A run that ended over one that goes on. -/
def endedOverRun : State := { still with suspended := [(running [0xE7, 0x00, 0x08, 0x00]).currentRun] }

theorem test_witness_IdleStepChangesNothing :
    (still.inputs = [] ∧ still.stream[2 * still.nextWord + 1]? = none ∧ still.suspended = [])
    ∧ endedOverRun.inputs = [] ∧ endedOverRun.stream[2 * endedOverRun.nextWord + 1]? = none
    ∧ endedOverRun.suspended = (running [0xE7, 0x00, 0x08, 0x00]).currentRun :: [] :=
  ⟨⟨rfl, rfl, rfl⟩, rfl, rfl, rfl⟩

/-- An identity of the other `CTRL_RW_COUNT` is refused, one that the configuration has is answered. -/
theorem test_witness_OnlyAForeignIdentityIsRefused :
    step (given (.identity (.named .ctrlRW))) = .refused (.identityNotInConfiguration (.named .ctrlRW))
    ∧ ∃ t, step (given (.identity (.named .ctrlRd))) = .next t := ⟨rfl, _, rfl⟩

theorem test_witness_StepKeepsTheConfiguration : ∃ t, step (running [0xE7, 0x00]) = .next t := ⟨_, rfl⟩

/-- A run of EX1 that has decoded its word 0, 0x7600, and comes to its word 1, 0x00E7. -/
def atSecondWord : State := { running [0x00, 0x76, 0xE7, 0x00] with nextWord := 1, results := [.noMatch 0x7600] }

/-- The same word at two places of two runs, and from the host in the middle of a third. -/
theorem test_witness_WordOutputIgnoresHistory :
    (running [0xE7, 0x00]).cfg = atSecondWord.cfg ∧ atSecondWord.cfg = (givenInRun (.word 0x00E7)).cfg
    ∧ ((running [0xE7, 0x00]).inputs = []
      ∧ wordAt (running [0xE7, 0x00]).stream (running [0xE7, 0x00]).nextWord = some 0x00E7)
    ∧ (atSecondWord.inputs = [] ∧ wordAt atSecondWord.stream atSecondWord.nextWord = some 0x00E7)
    ∧ (∃ rest, (givenInRun (.word 0x00E7)).inputs = .word 0x00E7 :: rest)
    ∧ (∃ t, step (running [0xE7, 0x00]) = .next t) ∧ (∃ t, step atSecondWord = .next t)
    ∧ ∃ t, step (givenInRun (.word 0x00E7)) = .next t :=
  ⟨rfl, rfl, ⟨rfl, rfl⟩, ⟨rfl, rfl⟩, ⟨_, rfl⟩, ⟨_, rfl⟩, ⟨_, rfl⟩, _, rfl⟩

/-- Coherent states with a word to decode, with an input to take in the middle of a run, and with a run to take up. -/
theorem test_witness_StepKeepsCoherence : ((running [0xE7, 0x00]).Coherent ∧ ∃ t, step (running [0xE7, 0x00]) = .next t)
    ∧ ((givenInRun (.stream [])).Coherent ∧ ∃ t, step (givenInRun (.stream [])) = .next t)
    ∧ (endedOverRun.Coherent ∧ ∃ t, step endedOverRun = .next t) :=
  ⟨⟨⟨⟨rfl, rfl⟩, ⟨rfl, rfl, rfl, rfl, rfl⟩, ⟨by decide, rfl, rfl⟩, nofun⟩, _, rfl⟩,
    ⟨⟨⟨rfl, rfl⟩, ⟨rfl, rfl, rfl, rfl, rfl⟩, ⟨by decide, rfl, rfl⟩, nofun⟩, _, rfl⟩,
    ⟨⟨⟨rfl, rfl⟩, ⟨rfl, rfl, rfl, rfl, rfl⟩, ⟨by decide, rfl, rfl⟩,
      fun r hr => by cases List.mem_singleton.mp hr; exact ⟨by decide, rfl, rfl⟩⟩, _, rfl⟩⟩

/-- A host that makes a lookup and presents a word meanwhile; and a run at its first word over which the empty stream is
presented. -/
theorem test_witness_RunDecodesTheWholeStream :
    (∀ x ∈ ({ still with inputs := [.code 0xFF, .word 0x7600] } : State).inputs, x.lookup ex1.params = true)
    ∧ (givenInRun (.stream [])).RunCoherent
    ∧ (givenInRun (.stream [])).nextWord < (givenInRun (.stream [])).stream.length / 2
    ∧ (givenInRun (.stream [])).inputs = [.stream []] :=
  ⟨by decide, ⟨by decide, rfl, rfl⟩, by decide, rfl⟩

theorem test_witness_ListingHoldsUnknownForNoMatch :
    atSecondWord.RunCoherent ∧ atSecondWord.results[0]? = some (.noMatch 0x7600) := ⟨⟨by decide, rfl, rfl⟩, rfl⟩

/-- Word 0 stays where a word is placed at word address 1. -/
theorem test_witness_PlacedWordIsFetchedNext :
    0 < atSecondWord.nextWord ∧ 0 < atSecondWord.stream.length / 2 := by decide

end Sys2Proof.Tests
end

section
/-! The destination selector and its bit (spec/10_state.md). -/

namespace Sys2Proof

@[simp] theorem toBit_fromBit (b : Bool) : (Dest.fromBit b).toBit = b := by
  cases b <;> rfl

/-- Settles O24: the two values by evaluation, and the two maps inverse to each other by a split on the bit and on the
selector. -/
theorem destinationSelectorBit : Obligations.DestinationSelectorBit :=
  ⟨rfl, rfl, toBit_fromBit, fromBit_toBit⟩

end Sys2Proof
end

section
/-! The byte order of the word-assembly front end (spec/20_memory.md). -/

namespace Sys2Proof

/-- R51 writes a word both as `{hi, lo}` and as `lo | (hi << 8)`. -/
theorem assemble_eq_or_shiftLeft (lo hi : Byte) : assemble lo hi = lo.setWidth 16 ||| hi.setWidth 16 <<< 8 := by
  rw [assemble, BitVec.append_def, BitVec.shiftLeftZeroExtend_eq, BitVec.setWidth'_eq, BitVec.or_comm]

/-- Settles O35: the word at address `i` is assembled from the two bytes there, low byte first. -/
theorem wordsAreLittleEndian : Obligations.WordsAreLittleEndian := by
  intro bytes i lo hi hlo hhi
  rw [Machine.words_getElem?, Machine.wordAt_eq_some_iff]
  exact ⟨lo, hi, hlo, hhi, (assemble_eq_or_shiftLeft lo hi).symm⟩

end Sys2Proof
end

section
/-! The immediate rows of an admitted table (spec/30_encoding.md). -/

namespace Sys2Proof

/-- An immediate row of the table is the row of an entry of `IMM_OPS` (R77, R81). -/
theorem Config.immEntry_of_imm8_row {c : Config} {r : Row} {op : ImmOp} (hr : r ∈ c.params.rules)
    (hop : r.recipe = .imm8 op) : ∃ e ∈ c.params.immOps, e.op = op ∧ r = e.row := by
  rcases c.row_cases hr with hhead | ⟨_, _, rfl⟩ | rfl | rfl | ⟨_, _, rfl⟩ | ⟨e, _, rfl⟩ | rfl | rfl | rfl | rfl | rfl
    | rfl | rfl | ⟨e, he, rfl⟩ | rfl | rfl | rfl | rfl
  · simp only [headRows, List.mem_cons, List.not_mem_nil, or_false] at hhead
    rcases hhead with rfl | rfl | rfl <;> cases hop
  -- WaitB, PushAll, PopAll and the control operations
  iterate 4 cases hop
  · have hvariant := e.row_variant.symm.trans (congrArg Recipe.variant hop)
    cases hvariant
  -- the bit-indexed and the bit-routing rows
  iterate 7 cases hop
  · exact ⟨e, he, Recipe.imm8.inj hop, rfl⟩
  -- the control transfers
  iterate 4 cases hop

/-- `IMM_OPC[op]` is the byte of the operation's one entry (R180). -/
theorem Config.immByte_of_mem {c : Config} {e : ImmEntry} (he : e ∈ c.params.immOps) :
    c.params.immByte e.op = some e.byte := by
  obtain ⟨e', he'⟩ : ∃ e', (c.params.immOps.find? fun x => x.op == e.op) = some e' :=
    Option.isSome_iff_exists.mp (List.find?_isSome.mpr ⟨e, he, beq_self_eq_true e.op⟩)
  have hop : e'.op = e.op := by simpa using List.find?_some he'
  have hsame : e' = e := Config.immEntry_unique (List.mem_of_find?_eq_some he') he hop
  rw [Params.immByte, he', hsame, Option.map_some]

/-- Settles O11: such a row stands for an entry of `IMM_OPS`, and `IMM_OPC` finds that entry because the operation has no
other. -/
theorem immediateRowsTestTheWholeHighByte : Obligations.ImmediateRowsTestTheWholeHighByte := by
  intro c r op hr hop
  obtain ⟨e, he, rfl, rfl⟩ := Config.immEntry_of_imm8_row hr hop
  exact ⟨rfl, e.byte, Config.immByte_of_mem he, rfl⟩

end Sys2Proof
end

section
/-! Bit-fields and the recipes without a register operand (spec/30_encoding.md). -/

namespace Sys2Proof

@[simp] theorem field_toNat (n raw : Nat) : (field n raw).toNat = raw % 2 ^ n :=
  BitVec.toNat_ofNat raw n

theorem newField_of_lt {n raw : Nat} (h : raw < 2 ^ n) : newField n raw = some (field n raw) :=
  if_pos h

theorem newField_of_le {n raw : Nat} (h : 2 ^ n ≤ raw) : newField n raw = none :=
  if_neg (Nat.not_lt.mpr h)

@[simp] theorem slice_toNat (lo n : Nat) (w : Word) : (slice lo n w).toNat = w.toNat / 2 ^ lo % 2 ^ n := by
  rw [slice, field_toNat, Nat.shiftRight_eq_div_pow]

/-- The model's slice (R8) is the library's. -/
theorem slice_eq_extractLsb' (lo n : Nat) (w : Word) : slice lo n w = w.extractLsb' lo n := rfl

/-- Settles O23: a raw value in range is its own residue, and one out of range is refused. -/
theorem bitFieldConstructors : Obligations.BitFieldConstructors := by
  refine ⟨fun n raw => ⟨field_toNat n raw, fun hlt => ⟨field n raw, newField_of_lt hlt, ?_⟩, newField_of_le⟩, slice_toNat⟩
  rw [field_toNat, Nat.mod_eq_of_lt hlt]

/-- Settles O25: each recipe's own equation, its slices read as the library's. -/
theorem plainRouteAndImmediateRecipes : Obligations.PlainRouteAndImmediateRecipes := by
  intro destBit w
  simp only [← slice_eq_extractLsb']
  exact ⟨rfl, rfl, rfl, rfl, fun _ => rfl, rfl, rfl, rfl, rfl, rfl, rfl, fun _ => rfl⟩

end Sys2Proof
end

section
/-! The first-match engine, and what a word's decode drives (spec/40_decode_engine.md). -/

namespace Sys2Proof

/-- A decode passes over rows that do not match, and the first row that does decides (R101). -/
theorem firstMatch_append_cons_of_hits {destBit : Nat} {w : Word} {before : List Row} {r : Row} (after : List Row)
    (hbefore : ∀ q ∈ before, q.hits w = false) (hr : r.hits w = true) :
    firstMatch destBit w (before ++ r :: after) = .ok (r.recipe.apply destBit w) := by
  rw [firstMatch_append_of_no_hit before _ hbefore, firstMatch_cons_of_hits after hr]

/-- Settles O1: the rows before `r` pass the word on, and `r` takes it. -/
theorem firstMatchingRowDecides : Obligations.FirstMatchingRowDecides := by
  intro c before after r w hrules hbefore hr
  rw [decode, hrules]
  exact firstMatch_append_cons_of_hits after (fun q hq => Row.not_hits_iff.mpr (hbefore q hq)) (Row.hits_iff.mpr hr)

namespace Machine

/-- A step over the stream's next word, with no input pending, drives the word's decode (R59, R100). -/
theorem step_output_of_streamWord {s : State} {w : Word} (hi : s.inputs = [])
    (hw : wordAt s.stream s.nextWord = some w) : ∃ t, step s = .next t
      ∧ t.out = decode s.cfg.params w ∧ t.ports = flatPorts w (decode s.cfg.params w) := by
  obtain ⟨t, hexec, hout, hports, _⟩ := exec_substituted s.cfg.params w (s.presentWord w)
  refine ⟨t.record, ?_, hout, hports⟩
  rw [step_of_activity_streamWord (activity_of_word hi hw), State.instructionOf, hexec, onNext_next]

/-- A step over the host's word drives the word's decode, whatever run is in progress (R59, R100, R229). -/
theorem step_output_of_portWord {s : State} {w : Word} {rest : List Input} (hi : s.inputs = .word w :: rest) :
    ∃ t, step s = .next t
      ∧ t.out = decode s.cfg.params w ∧ t.ports = flatPorts w (decode s.cfg.params w) := by
  obtain ⟨t, hexec, hout, hports, _⟩ :=
    exec_substituted s.cfg.params w (({ s with inputs := rest } : State).presentWord w)
  exact ⟨t, (step_of_activity_portWord (activity_of_input hi)).trans hexec, hout, hports⟩

/-- Whichever way the word came, the output after the step is a function of the word and the configuration (R105). -/
theorem output_of_step_over_word {s t : State} {w : Word}
    (hw : s.inputs = [] ∧ wordAt s.stream s.nextWord = some w ∨ ∃ rest, s.inputs = .word w :: rest)
    (hstep : step s = .next t) :
    t.out = decode s.cfg.params w ∧ t.ports = flatPorts w (decode s.cfg.params w) := by
  obtain ⟨u, hu, houtput⟩ : ∃ u, step s = .next u
      ∧ u.out = decode s.cfg.params w ∧ u.ports = flatPorts w (decode s.cfg.params w) := by
    obtain ⟨hi, hword⟩ | ⟨rest, hi⟩ := hw
    · exact step_output_of_streamWord hi hword
    · exact step_output_of_portWord hi
  cases hstep.symm.trans hu
  exact houtput

end Machine

/-- Settles O54: each step drives the same function of the same word and configuration. -/
theorem wordOutputIgnoresHistory : Obligations.WordOutputIgnoresHistory := by
  intro s s' t t' w hcfg hw hw' hstep hstep'
  obtain ⟨hout, hports⟩ := Machine.output_of_step_over_word hw hstep
  obtain ⟨hout', hports'⟩ := Machine.output_of_step_over_word hw' hstep'
  rw [hout, hports, hout', hports', hcfg]
  exact ⟨rfl, rfl⟩

end Sys2Proof
end

section
/-! The value of a label and its reference spelling (spec/46_control_transfer.md). -/

namespace Sys2Proof
namespace Label

/-- Zero-extension to 12 bits keeps the value of an 8-bit label. -/
@[simp] theorem value_label8 (v : BitVec 8) : (label8 v).value = v.toNat :=
  BitVec.toNat_setWidth_of_le (by decide)

/-- Zero-extension to 12 bits keeps the value of a 10-bit label. -/
@[simp] theorem value_label10 (v : BitVec 10) : (label10 v).value = v.toNat :=
  BitVec.toNat_setWidth_of_le (by decide)

/-- A 12-bit label is as wide as the port and is its own value. -/
@[simp] theorem value_label12 (v : BitVec 12) : (label12 v).value = v.toNat := rfl

/-- The spelling of a label is fixed by its value, whatever its width (R194). -/
theorem text_of_value {l : Label} {n : Nat} (h : l.value = n) : l.text = ['.', 'L'] ++ Nat.toDigits 10 n := by
  rw [text, decimal, h, List.cons_append, List.cons_append, List.nil_append]

end Label

/-- Settles O26: at each width the port's 12-bit value is the label's own value, and the spelling is fixed by it. -/
theorem labelSpelling : Obligations.LabelSpelling :=
  ⟨fun v => Label.text_of_value (Label.value_label8 v),
    fun v => Label.text_of_value (Label.value_label10 v),
    fun v => Label.text_of_value (Label.value_label12 v)⟩

end Sys2Proof
end

section
/-! The rows of an admitted table, recipe by recipe (spec/30_encoding.md, sections 4 and 5). -/

namespace Sys2Proof

/-- The row is one that the parameters, or the three fixed head rows, give to this recipe (R75, R81). -/
def Params.Gives (p : Params) (r : Row) : Recipe → Prop
  | .none .nop => r = ⟨0xFFFF, 0x0000, .none .nop⟩
  | .none .clearWatchDog => r = ⟨0xFFFF, 0x0008, .none .clearWatchDog⟩
  | .none .pushAll => r = p.pushAll.row (.none .pushAll)
  | .none .popAll => r = p.popAll.row (.none .popAll)
  | .none (.ctrl op) => ∃ e ∈ p.ctrlOps, e.name = op ∧ r = e.pattern.row (.none (.ctrl e.name))
  | .sleep2 => r = ⟨0xFFFC, 0x000C, .sleep2⟩
  | .sreg8 op => ∃ e ∈ p.sregOps, e.name = op ∧ e.form = .form8 ∧ r = e.row
  | .sreg9 op => ∃ e ∈ p.sregOps, e.name = op ∧ e.form = .form9 ∧ r = e.row
  | .bitidx .bitClear => r = bitRow p.bitOpc.bitClear .bitClear
  | .bitidx .bitSet => r = bitRow p.bitOpc.bitSet .bitSet
  | .bitidx .bitTest => r = bitRow p.bitOpc.bitTest .bitTest
  | .route .bitOut1 => r = routeRow p.routeClass.bitOut1 .bitOut1
  | .route .bitOut2 => r = routeRow p.routeClass.bitOut2 .bitOut2
  | .route .bitIn1 => r = routeRow p.routeClass.bitIn1 .bitIn1
  | .route .bitIn2 => r = routeRow p.routeClass.bitIn2 .bitIn2
  | .imm8 op => ∃ e ∈ p.immOps, e.op = op ∧ r = e.row
  | .label n .ct0 => n = p.ct0.width ∧ r = p.ct0.row .ct0
  | .label n .ct1 => n = p.ct1.width ∧ r = p.ct1.row .ct1
  | .label n .ct2 => n = p.ct2.width ∧ r = p.ct2.row .ct2
  | .label n .ct3 => n = p.ct3.width ∧ r = p.ct3.row .ct3
  | .waitB fmt => fmt = p.waitbFormat ∧ ∃ a ∈ p.waitbRows, r = a.row (.waitB p.waitbFormat)

/-- Every row of an admitted table is given to its own recipe. -/
theorem Config.gives {c : Config} {r : Row} (hr : r ∈ c.params.rules) : c.params.Gives r r.recipe := by
  rcases c.row_cases hr with hhead | ⟨a, ha, rfl⟩ | rfl | rfl | ⟨e, he, rfl⟩ | ⟨e, he, rfl⟩ | rfl | rfl | rfl | rfl | rfl
    | rfl | rfl | ⟨e, he, rfl⟩ | rfl | rfl | rfl | rfl
  · simp only [headRows, List.mem_cons, List.not_mem_nil, or_false] at hhead
    rcases hhead with rfl | rfl | rfl <;> rfl
  · exact ⟨rfl, a, ha, rfl⟩
  · rfl
  · rfl
  · exact ⟨e, he, rfl, rfl⟩
  · obtain ⟨hform, hrecipe⟩ | ⟨hform, hrecipe⟩ := e.row_recipe <;> rw [hrecipe] <;> exact ⟨e, he, rfl, hform, rfl⟩
  -- the bit-indexed and the bit-routing rows
  iterate 7 rfl
  · exact ⟨e, he, rfl, rfl⟩
  -- the control transfers
  iterate 4 exact ⟨rfl, rfl⟩

/-- The 9-bit form stands in an admitted table only where the parameters use it, and then `DEST_BIT` is clear of it (R67,
R141). -/
theorem Config.nine_le_destBit_of_sreg9 {c : Config} {r : Row} (hr : r ∈ c.params.rules)
    (hf : r.recipe.format = .sreg9) : 9 ≤ c.params.destBit := by
  refine c.destBit_bounds.2.2 ?_
  rw [Params.usesSreg9, Bool.or_eq_true, List.any_eq_true]
  have hgives := c.gives hr
  cases hrecipe : r.recipe with
  | sreg9 op =>
    rw [hrecipe] at hgives
    obtain ⟨e, he, _, hform, _⟩ := hgives
    exact .inl ⟨e, he, beq_iff_eq.mpr hform⟩
  | waitB fmt =>
    rw [hrecipe] at hgives hf
    exact .inr (beq_iff_eq.mpr (hgives.1.symm.trans hf))
  | none | sleep2 | sreg8 | bitidx | route | imm8 | label =>
    rw [hrecipe] at hf
    cases hf

end Sys2Proof
end

section
/-! The encoder and the decoder over one admitted table (spec/30_encoding.md, section 4). -/

namespace Sys2Proof

/-- A decode's instruction is built by the first row that matches the word (R100, R101). -/
theorem decode_eq_ok_iff {p : Params} {w : Word} {i : Instr} :
    decode p w = .ok i ↔ ∃ before r after, p.rules = before ++ r :: after ∧ (∀ q ∈ before, q.hits w = false)
      ∧ r.hits w = true ∧ r.recipe.apply p.destBit w = i := by
  constructor
  · intro h
    obtain ⟨before, r, after, hrules, hbefore, hr, hi, _⟩ := decode_ok_inversion h
    exact ⟨before, r, after, hrules, hbefore, hr, hi.symm⟩
  · rintro ⟨before, r, after, hrules, hbefore, hr, rfl⟩
    rw [decode, hrules, firstMatch_append_cons_of_hits after hbefore hr]

/-- `w` is a word of the row for the instruction: the match value, the operands in their places, and any of the bits that
the row ignores. -/
def Row.Encodes (r : Row) (destBit : Nat) (i : Instr) (w : Word) : Prop :=
  r.recipe.emits i = true ∧ ∃ d : Word, (∀ j, d.getLsbD j = true → (r.ignored destBit).getLsbD j = true)
    ∧ w = r.expected ||| i.operands.place destBit ||| d

theorem Row.ignored_getLsbD {r : Row} {destBit j : Nat} (h : (r.ignored destBit).getLsbD j = true) :
    r.mask.getLsbD j = false ∧ (r.recipe.format.operandMask destBit).getLsbD j = false := by
  simp only [Row.ignored, BitVec.getLsbD_and, BitVec.getLsbD_not, Bool.and_eq_true, Bool.not_eq_true'] at h
  obtain ⟨⟨_, hmask⟩, _, hoperand⟩ := h
  exact ⟨hmask, hoperand⟩

/-- A match bit lies inside the mask (R73). -/
theorem Config.mask_getLsbD_of_expected {c : Config} {r : Row} (hr : r ∈ c.params.rules) {j : Nat}
    (h : r.expected.getLsbD j = true) : r.mask.getLsbD j = true := by
  have hclear := congrArg (fun v : Word => v.getLsbD j) (c.row_wellFormed hr).1
  have hj := BitVec.lt_of_getLsbD h
  simpa [h, hj] using hclear

/-- An operand bit lies outside the mask (R74). -/
theorem Config.mask_getLsbD_of_operand {c : Config} {r : Row} (hr : r ∈ c.params.rules) {j : Nat}
    (h : (r.recipe.format.operandMask c.params.destBit).getLsbD j = true) : r.mask.getLsbD j = false :=
  getLsbD_of_and_eq_zero (c.row_wellFormed hr).2 h

/-- A row of an admitted table matches its words for an instruction: operands and ignored bits lie outside its mask. -/
theorem Config.hits_of_encodes {c : Config} {r : Row} {i : Instr} {w : Word} (hr : r ∈ c.params.rules)
    (h : r.Encodes c.params.destBit i w) : r.hits w = true := by
  obtain ⟨hemits, d, hd, rfl⟩ := h
  obtain ⟨h8, h15, _⟩ := c.destBit_bounds
  obtain ⟨_, hformat⟩ := Recipe.emits_iff.mp hemits
  have hplace := place_and_mask i.operands h8 h15 (hformat ▸ c.nine_le_destBit_of_sreg9 hr)
  rw [hformat] at hplace
  rw [Row.hits_iff]
  refine BitVec.eq_of_getLsbD_eq fun j _ => ?_
  have hexpected := c.mask_getLsbD_of_expected hr (j := j)
  have hoperand := c.mask_getLsbD_of_operand hr (j := j)
  have hignored := fun hdj => Row.ignored_getLsbD (hd j hdj)
  have hplaced := congrArg (fun v : Word => v.getLsbD j) hplace
  simp only [BitVec.getLsbD_and, BitVec.getLsbD_or] at hplaced ⊢
  grind

/-- An admitted row builds the instruction from its words for it: the match value and the ignored bits are clear where
the recipe reads. -/
theorem Config.apply_of_encodes {c : Config} {r : Row} {i : Instr} {w : Word} (hr : r ∈ c.params.rules)
    (h : r.Encodes c.params.destBit i w) : r.recipe.apply c.params.destBit w = i := by
  obtain ⟨hemits, d, hd, rfl⟩ := h
  obtain ⟨h8, h15, _⟩ := c.destBit_bounds
  have hclear : (r.expected ||| d) &&& r.recipe.format.operandMask c.params.destBit = 0 := by
    refine BitVec.eq_of_getLsbD_eq fun j _ => ?_
    have hexpected := c.mask_getLsbD_of_expected hr (j := j)
    have hoperand := c.mask_getLsbD_of_operand hr (j := j)
    have hignored := fun hdj => Row.ignored_getLsbD (hd j hdj)
    simp only [BitVec.getLsbD_and, BitVec.getLsbD_or]
    grind
  rw [BitVec.or_assoc, BitVec.or_comm (i.operands.place _), ← BitVec.or_assoc]
  exact Recipe.apply_place hemits h8 h15 (c.nine_le_destBit_of_sreg9 hr) hclear

/-- A word that a row matches is one of the row's words for the instruction that its recipe builds. -/
theorem Config.encodes_apply_of_hits {c : Config} {r : Row} {w : Word} (hr : r ∈ c.params.rules)
    (h : r.hits w = true) : r.Encodes c.params.destBit (r.recipe.apply c.params.destBit w) w := by
  obtain ⟨h8, h15, _⟩ := c.destBit_bounds
  refine ⟨r.recipe.emits_apply _ w, w &&& r.ignored c.params.destBit, fun j hj => ?_, ?_⟩
  · rw [BitVec.getLsbD_and, Bool.and_eq_true] at hj
    exact hj.2
  · rw [Recipe.apply_operands, place_extract _ w h8 h15 (c.nine_le_destBit_of_sreg9 hr), ← Row.hits_iff.mp h]
    apply BitVec.eq_of_getLsbD_eq
    intro j hj
    simp only [Row.ignored, BitVec.getLsbD_or, BitVec.getLsbD_and, BitVec.getLsbD_not, hj, decide_true, Bool.true_and]
    cases w.getLsbD j <;> cases r.mask.getLsbD j <;> simp

theorem getLsbD_and_not_twoPow (d : Word) (n j : Nat) :
    (d &&& ~~~BitVec.twoPow 16 n).getLsbD j = (d.getLsbD j && !decide (j = n)) := by
  by_cases hj : j < 16
  · simp [hj]
  · simp [BitVec.getLsbD_of_ge d j (by omega)]

/-- The search misses no word: where a set of free bits below bit `n` makes the word good, it answers. -/
theorem searchFree_isSome {free : Word} {good : Word → Bool} {n : Nat} {w d : Word}
    (hd : ∀ j, d.getLsbD j = true → free.getLsbD j = true ∧ j < n) (hgood : good (w ||| d) = true) :
    (searchFree free good n w).isSome = true := by
  induction n generalizing w d with
  | zero =>
    have hd0 : d = 0 := BitVec.eq_of_getLsbD_eq fun j _ => by
      simpa using fun hj => Nat.not_lt_zero j (hd j hj).2
    simp only [hd0, BitVec.ofNat_eq_ofNat, BitVec.or_zero] at hgood
    simp [searchFree, hgood]
  | succ n ih =>
    rw [searchFree]
    cases hrec : searchFree free good n w with
    | some v => rfl
    | none =>
      cases hn : d.getLsbD n with
      | true =>
        have hsplit : w ||| BitVec.twoPow 16 n ||| (d &&& ~~~BitVec.twoPow 16 n) = w ||| d := by
          apply BitVec.eq_of_getLsbD_eq
          intro j hj
          simp only [BitVec.getLsbD_or, getLsbD_and_not_twoPow, BitVec.getLsbD_twoPow]
          grind
        rw [if_pos (hd n hn).1]
        refine ih (d := d &&& ~~~BitVec.twoPow 16 n) (fun j hj => ?_) (hsplit ▸ hgood)
        rw [getLsbD_and_not_twoPow, Bool.and_eq_true, Bool.not_eq_true', decide_eq_false_iff_not] at hj
        obtain ⟨hfree, hlt⟩ := hd j hj.1
        exact ⟨hfree, by omega⟩
      | false =>
        have hbelow : ∀ j, d.getLsbD j = true → free.getLsbD j = true ∧ j < n := by
          intro j hj
          obtain ⟨hfree, hlt⟩ := hd j hj
          have hne : j ≠ n := by
            rintro rfl
            rw [hn] at hj
            cases hj
          exact ⟨hfree, by omega⟩
        exact absurd (ih hbelow hgood) (by simp [hrec])

theorem Row.place_eq_some_iff {r : Row} {destBit : Nat} {i : Instr} {w : Word} :
    r.place destBit i = some w ↔ r.recipe.emits i = true ∧ w = r.expected ||| i.operands.place destBit := by
  rw [Row.place]
  split
  · rename_i h
    simp only [h, Option.some.injEq, true_and]
    exact eq_comm
  · rename_i h
    simp [h]

/-- What the encoder answers is a word of a row that no row before it matches. -/
theorem encodeFrom_eq_some {destBit : Nat} {before : List Row} {i : Instr} {rs : List Row} {w : Word}
    (h : encodeFrom destBit before i rs = some w) : ∃ skipped r after, rs = skipped ++ r :: after
      ∧ (∀ q ∈ before ++ skipped, q.hits w = false) ∧ r.Encodes destBit i w := by
  induction rs generalizing before with
  | nil => cases h
  | cons r rs ih =>
    rw [encodeFrom] at h
    split at h
    · rename_i v hv
      cases h
      obtain ⟨base, hbase, hsearch⟩ := Option.bind_eq_some_iff.mp hv
      obtain ⟨hemits, rfl⟩ := Row.place_eq_some_iff.mp hbase
      obtain ⟨hgood, d, hd, hw⟩ := searchFree_eq_some hsearch
      refine ⟨[], r, rs, rfl, ?_, hemits, d, fun j hj => (hd j hj).1, hw⟩
      simpa using hgood
    · obtain ⟨skipped, q, after, rfl, hskipped, hq⟩ := ih h
      exact ⟨r :: skipped, q, after, rfl, by simpa using hskipped, hq⟩

/-- The encoder answers wherever some row has a word that no row before it matches. -/
theorem encodeFrom_isSome {destBit : Nat} {before skipped after : List Row} {r : Row} {i : Instr} {w : Word}
    (hskipped : ∀ q ∈ before ++ skipped, q.hits w = false) (hr : r.Encodes destBit i w) :
    (encodeFrom destBit before i (skipped ++ r :: after)).isSome = true := by
  induction skipped generalizing before with
  | nil =>
    obtain ⟨hemits, d, hd, hw⟩ := hr
    have hfound : ((r.place destBit i).bind (searchFree (r.ignored destBit)
        (fun w => before.all fun q => !q.hits w) 16)).isSome = true := by
      rw [Row.place_eq_some_iff.mpr ⟨hemits, rfl⟩, Option.bind_some]
      refine searchFree_isSome (fun j hj => ⟨hd j hj, BitVec.lt_of_getLsbD hj⟩) ?_
      rw [← hw]
      simpa using hskipped
    obtain ⟨v, hv⟩ := Option.isSome_iff_exists.mp hfound
    rw [List.nil_append, encodeFrom, hv]
    rfl
  | cons q skipped ih =>
    rw [List.cons_append, encodeFrom]
    split
    · rfl
    · exact ih (by simpa using hskipped)

/-- Settles O20: the encoder's word belongs to a row that emits the instruction and that no row before it forestalls, and
that row reads the placed operands back. -/
theorem decodeOfEncode : Obligations.DecodeOfEncode := by
  intro c i w h
  obtain ⟨before, r, after, hrules, hbefore, hr⟩ := encodeFrom_eq_some h
  have hmem : r ∈ c.params.rules := by simp [hrules]
  exact decode_eq_ok_iff.mpr
    ⟨before, r, after, hrules, hbefore, c.hits_of_encodes hmem hr, c.apply_of_encodes hmem hr⟩

/-- Settles O21: one direction is O20; in the other, the word that decodes to the instruction is itself one that the
encoder's search comes to at the row that matched it. -/
theorem encodeFindsEveryDecodedInstruction : Obligations.EncodeFindsEveryDecodedInstruction := by
  intro c i
  constructor
  · intro h
    obtain ⟨w, hw⟩ := Option.isSome_iff_exists.mp h
    exact ⟨w, decodeOfEncode c i w hw⟩
  · rintro ⟨w, hw⟩
    obtain ⟨before, r, after, hrules, hbefore, hhits, rfl⟩ := decode_eq_ok_iff.mp hw
    have hmem : r ∈ c.params.rules := by simp [hrules]
    rw [encode, hrules]
    exact encodeFrom_isSome (by simpa using hbefore) (c.encodes_apply_of_hits hmem hhits)

end Sys2Proof
end

section
/-! The rows of each variant in an admitted table (spec/30_encoding.md, sections 4 and 5). -/

namespace Sys2Proof

/-- The rows of the table that name a variant. -/
def Params.rowsOf (p : Params) (v : Variant) : List Row :=
  p.rules.filter fun r => r.recipe.variant = v

theorem Params.mem_rowsOf {p : Params} {v : Variant} {r : Row} :
    r ∈ p.rowsOf v ↔ r ∈ p.rules ∧ r.recipe.variant = v := by
  rw [Params.rowsOf, List.mem_filter, decide_eq_true_eq]

/-- An operation of `IMM_OPS` has one entry (log entry 12). -/
theorem Config.immOps_filter_op {c : Config} {e : ImmEntry} (he : e ∈ c.params.immOps) :
    (c.params.immOps.filter fun x => x.op = e.op) = [e] := by
  obtain ⟨_, _, _, hchecked, _⟩ := c.families_checked
  simp only [Params.immOpsOk, Bool.and_eq_true] at hchecked
  obtain ⟨⟨hdistinct, _⟩, _⟩ := hchecked
  have hnodup : c.params.immOps.Nodup := (distinct_nodup hdistinct).of_map
  refine List.perm_singleton.mp ((List.perm_ext_iff_of_nodup (hnodup.filter _) (List.nodup_singleton e)).mpr fun x => ?_)
  rw [List.mem_filter, List.mem_singleton, decide_eq_true_eq]
  constructor
  · rintro ⟨hx, hop⟩
    exact Config.immEntry_unique hx he hop
  · rintro rfl
    exact ⟨he, rfl⟩

/-- The rows that name a variant, list by list of the parameters, each in its parameter's order. -/
def Params.givenRowsOf (p : Params) (v : Variant) : List Row :=
  headRows.filter (fun r => r.recipe.variant = v)
  ++ (p.waitbRows.filter fun _ => .waitB = v).map (·.row (.waitB p.waitbFormat))
  ++ [p.pushAll.row (.none .pushAll), p.popAll.row (.none .popAll)].filter (fun r => r.recipe.variant = v)
  ++ (p.ctrlOps.filter fun e => .ctrl e.name = v).map (fun e => e.pattern.row (.none (.ctrl e.name)))
  ++ (p.sregOps.filter fun e => .sreg e.name = v).map SRegOp.row
  ++ [bitRow p.bitOpc.bitClear .bitClear, bitRow p.bitOpc.bitSet .bitSet,
    bitRow p.bitOpc.bitTest .bitTest].filter (fun r => r.recipe.variant = v)
  ++ [routeRow p.routeClass.bitOut1 .bitOut1, routeRow p.routeClass.bitOut2 .bitOut2,
    routeRow p.routeClass.bitIn1 .bitIn1, routeRow p.routeClass.bitIn2 .bitIn2].filter (fun r => r.recipe.variant = v)
  ++ (p.immOps.filter fun e => .imm e.op = v).map ImmEntry.row
  ++ [p.ct0.row .ct0, p.ct1.row .ct1, p.ct2.row .ct2, p.ct3.row .ct3].filter (fun r => r.recipe.variant = v)

theorem Params.givenRowsOf_eq_filter (p : Params) (v : Variant) :
    p.givenRowsOf v = (headRows ++ p.familyRows).filter fun r => r.recipe.variant = v := by
  simp only [Params.familyRows, List.filter_append, List.filter_map, Function.comp_def, SRegOp.row_variant,
    ← List.append_assoc]
  rfl

/-- The order that `RULES` gives the family rows does not change which rows name a variant (R70, R81). -/
theorem Config.rowsOf_perm (c : Config) (v : Variant) : (c.params.rowsOf v).Perm (c.params.givenRowsOf v) := by
  rw [Params.givenRowsOf_eq_filter]
  exact (c.rules_checked.1.append_left headRows).filter _

theorem Config.rowsOf_eq_nil {c : Config} {v : Variant} (h : c.params.givenRowsOf v = []) : c.params.rowsOf v = [] :=
  List.perm_nil.mp (h ▸ c.rowsOf_perm v)

theorem Config.rowsOf_eq_singleton {c : Config} {v : Variant} {r : Row} (h : c.params.givenRowsOf v = [r]) :
    c.params.rowsOf v = [r] :=
  List.perm_singleton.mp (h ▸ c.rowsOf_perm v)

@[simp] theorem Pattern.row_recipe (a : Pattern) (rc : Recipe) : (a.row rc).recipe = rc := rfl
@[simp] theorem bitRow_recipe (opc : BitVec 5) (v : BitVariant) : (bitRow opc v).recipe = .bitidx v := rfl
@[simp] theorem routeRow_recipe (cls : BitVec 3) (v : RouteVariant) : (routeRow cls v).recipe = .route v := rfl
@[simp] theorem CtEntry.row_recipe (e : CtEntry) (j : Ct) : (e.row j).recipe = .label e.width j := rfl

theorem Config.rowsOf_waitB_perm (c : Config) :
    (c.params.rowsOf .waitB).Perm (c.params.waitbRows.map (·.row (.waitB c.params.waitbFormat))) := by
  simpa [Params.givenRowsOf, headRows, Recipe.variant] using c.rowsOf_perm .waitB

theorem Config.rowsOf_ctrl_perm (c : Config) (op : Name) : (c.params.rowsOf (.ctrl op)).Perm
    ((c.params.ctrlOps.filter fun e => e.name = op).map fun e => e.pattern.row (.none (.ctrl e.name))) := by
  simpa [Params.givenRowsOf, headRows, Recipe.variant] using c.rowsOf_perm (.ctrl op)

theorem Config.rowsOf_sreg_perm (c : Config) (op : Name) :
    (c.params.rowsOf (.sreg op)).Perm ((c.params.sregOps.filter fun e => e.name = op).map SRegOp.row) := by
  simpa [Params.givenRowsOf, headRows, Recipe.variant] using c.rowsOf_perm (.sreg op)

theorem Config.rowsOf_imm_perm (c : Config) (op : ImmOp) :
    (c.params.rowsOf (.imm op)).Perm ((c.params.immOps.filter fun e => e.op = op).map ImmEntry.row) := by
  simpa [Params.givenRowsOf, headRows, Recipe.variant] using c.rowsOf_perm (.imm op)

theorem Config.rowsOf_imm {c : Config} {e : ImmEntry} (he : e ∈ c.params.immOps) :
    c.params.rowsOf (.imm e.op) = [e.row] := by
  simpa [Config.immOps_filter_op he] using c.rowsOf_imm_perm e.op

theorem Config.rowsOf_imm_of_not_listed {c : Config} {op : ImmOp} (hop : ∀ e ∈ c.params.immOps, e.op ≠ op) :
    c.params.rowsOf (.imm op) = [] := by
  have hnone : (c.params.immOps.filter fun e => e.op = op) = [] := by simpa using hop
  simpa [hnone] using c.rowsOf_imm_perm op

/-- Over the entries of one operation, a row may be written with the entry's name or with the operation's. -/
theorem map_filter_name_congr {α : Type} {l : List α} {f g : α → Row} {name : α → Name} {op : Name}
    (h : ∀ e, name e = op → f e = g e) :
    (l.filter fun e => name e = op).map f = (l.filter fun e => name e = op).map g :=
  List.map_congr_left fun e he => h e (by simpa using (List.mem_filter.mp he).2)

/-- Settles O6: the rows that name a variant are, but for their order, the ones its parameters give, and a variant with one
row leaves no order open. -/
theorem familyRowsStandOnce : Obligations.FamilyRowsStandOnce := by
  intro c
  refine ⟨Config.rowsOf_eq_singleton ?_, Config.rowsOf_eq_singleton ?_, Config.rowsOf_eq_singleton ?_,
    Config.rowsOf_eq_nil ?_, c.rowsOf_waitB_perm, fun op => ?_, fun op => ?_, fun e he => c.rowsOf_imm he,
    fun op hop => c.rowsOf_imm_of_not_listed hop, Config.rowsOf_eq_singleton ?_, Config.rowsOf_eq_singleton ?_,
    Config.rowsOf_eq_singleton ?_, Config.rowsOf_eq_singleton ?_, Config.rowsOf_eq_singleton ?_,
    Config.rowsOf_eq_singleton ?_, Config.rowsOf_eq_singleton ?_, Config.rowsOf_eq_singleton ?_,
    Config.rowsOf_eq_singleton ?_, Config.rowsOf_eq_singleton ?_, Config.rowsOf_eq_singleton ?_,
    Config.rowsOf_eq_singleton ?_, Config.rowsOf_eq_singleton ?_⟩
  case refine_5 =>
    rw [map_filter_name_congr (g := fun e => e.pattern.row (.none (.ctrl e.name))) fun e he => ?_]
    · exact c.rowsOf_ctrl_perm op
    · rw [he]
      rfl
  case refine_6 =>
    rw [map_filter_name_congr (g := SRegOp.row) fun e he => ?_]
    · exact c.rowsOf_sreg_perm op
    · subst he
      cases hform : e.form <;> simp [SRegOp.row, Pattern.row, hform]
  -- the variants with one row, and Unknown with none: every other list gives rows of other variants
  all_goals simp [Params.givenRowsOf, headRows, Recipe.variant, Pattern.row, bitRow, routeRow, CtEntry.row]

end Sys2Proof
end

section
/-! What a decode answers: the verdict, the head rows and the rows of each family (spec/40_decode_engine.md and
spec/41_control.md to spec/46_control_transfer.md). -/

namespace Sys2Proof

/-- Settles O2: a decode answers the verdict, with its own word, exactly where the engine runs out of rows. -/
theorem noMatchExactlyWhereNoRowMatches : Obligations.NoMatchExactlyWhereNoRowMatches := by
  intro c w v
  simp only [ne_eq, ← Row.hits_iff, Bool.not_eq_true]
  obtain ⟨before, r, after, hrules, _, hr, hdecode⟩ | ⟨hnone, hdecode⟩ :=
    firstMatch_cases c.params.destBit w c.params.rules
  · rw [decode, hdecode]
    constructor
    · intro h
      cases h
    · rintro ⟨_, hnone⟩
      have hmem : r ∈ c.params.rules := by simp [hrules]
      rw [hnone r hmem] at hr
      cases hr
  · rw [decode, hdecode, DecodeOut.noMatch.injEq]
    exact ⟨fun h => ⟨h.symm, hnone⟩, fun h => h.1.symm⟩

/-- Settles O3: a decoded instruction has the variant of a recipe, MOVL has none, and no recipe names the catch-all. -/
theorem decoderNeverEmitsUnknownOrMovl : Obligations.DecoderNeverEmitsUnknownOrMovl := by
  intro c w v
  constructor
  · intro h
    obtain ⟨_, r, _, _, _, _, _, hvariant⟩ := decode_ok_inversion h
    exact r.recipe.variant_ne_unknown (Option.some.inj hvariant).symm
  · intro h
    obtain ⟨_, r, _, _, _, _, _, hvariant⟩ := decode_ok_inversion h
    cases hvariant

/-- An instruction of a variant with one row is decoded from words of that row alone. -/
theorem Config.hits_of_decode_of_rowsOf {c : Config} {w : Word} {i : Instr} {v : Variant} {r : Row}
    (hrow : c.params.rowsOf v = [r]) (hv : i.variant = some v) (h : decode c.params w = .ok i) :
    r.hits w = true ∧ r.recipe.apply c.params.destBit w = i := by
  obtain ⟨before, q, after, hrules, _, hq, rfl, hvariant⟩ := decode_ok_inversion h
  have hmem : q ∈ c.params.rowsOf v :=
    Params.mem_rowsOf.mpr ⟨by simp [hrules], Option.some.inj (hvariant.symm.trans hv)⟩
  obtain rfl : q = r := by simpa [hrow] using hmem
  exact ⟨hq, rfl⟩

/-- A decode that some first rows of the table answer is the whole table's (R101). -/
theorem decode_of_first_rows {p : Params} {pre post : List Row} {w : Word} {i : Instr} (hrules : p.rules = pre ++ post)
    (h : firstMatch p.destBit w pre = .ok i) : decode p w = .ok i := by
  obtain ⟨before, r, after, rfl, hbefore, hr, hfirst⟩ | ⟨_, hfirst⟩ := firstMatch_cases p.destBit w pre
  · refine decode_eq_ok_iff.mpr ⟨before, r, after ++ post, by simp [hrules], hbefore, hr, ?_⟩
    exact DecodeOut.ok.inj (hfirst.symm.trans h)
  · cases hfirst.symm.trans h

/-- The head rows stand before every other row (R75). -/
theorem decode_of_head {p : Params} {w : Word} {i : Instr} (h : firstMatch p.destBit w headRows = .ok i) :
    decode p w = .ok i :=
  decode_of_first_rows rfl h

/-- A row that ignores no bit matches one word for each instruction that it builds. -/
theorem Config.word_of_hits {c : Config} {r : Row} {w : Word} (hr : r ∈ c.params.rules) (hhits : r.hits w = true)
    (hignored : r.ignored c.params.destBit = 0) :
    w = r.expected ||| (r.recipe.apply c.params.destBit w).operands.place c.params.destBit := by
  obtain ⟨_, d, hd, hw⟩ := c.encodes_apply_of_hits hr hhits
  have hd0 : d = 0 := BitVec.eq_of_getLsbD_eq fun j _ => by simpa [hignored] using hd j
  simpa [hd0] using hw

/-- A variant whose one row ignores no bit has one word for each of its instructions. -/
theorem Config.word_of_decode_of_rowsOf {c : Config} {w : Word} {i : Instr} {v : Variant} {r : Row}
    (hrow : c.params.rowsOf v = [r]) (hv : i.variant = some v) (hignored : r.ignored c.params.destBit = 0)
    (h : decode c.params w = .ok i) : w = r.expected ||| i.operands.place c.params.destBit := by
  have hmem : r ∈ c.params.rowsOf v := by simp [hrow]
  obtain ⟨hhits, rfl⟩ := Config.hits_of_decode_of_rowsOf hrow hv h
  exact Config.word_of_hits (Params.mem_rowsOf.mp hmem).1 hhits hignored

/-- Settles O5: each of the three has one row, a head row, and the mask and the level's bits leave no bit open. -/
theorem headInstructionsHaveOnlyTheirWords : Obligations.HeadInstructionsHaveOnlyTheirWords := by
  intro c w
  obtain ⟨hnop, hclear, hsleep, _⟩ := familyRowsStandOnce c
  have ignoresNone : ∀ e : Word, ∀ v : Plain, (⟨0xFFFF, e, .none v⟩ : Row).ignored c.params.destBit = 0 :=
    fun _ _ => by simp [Row.ignored]
  refine ⟨⟨fun h => ?_, ?_⟩, ⟨fun h => ?_, ?_⟩, fun k => ⟨fun h => ?_, ?_⟩⟩
  · simpa [Instr.operands, Operands.place] using Config.word_of_decode_of_rowsOf hnop rfl (ignoresNone _ _) h
  · rintro rfl
    exact decode_of_head rfl
  · simpa [Instr.operands, Operands.place] using Config.word_of_decode_of_rowsOf hclear rfl (ignoresNone _ _) h
  · rintro rfl
    exact decode_of_head rfl
  · exact Config.word_of_decode_of_rowsOf hsleep rfl (by simp [Row.ignored, Recipe.format, Format.operandMask]) h
  · rintro rfl
    have hlevels : ∀ k : BitVec 2, k = 0 ∨ k = 1 ∨ k = 2 ∨ k = 3 := by decide
    rcases hlevels k with rfl | rfl | rfl | rfl <;> exact decode_of_head rfl

/-- Settles O4: the four words are among those of O5. -/
theorem sourceSamplesDecode : Obligations.SourceSamplesDecode := by
  intro c
  have headWords := headInstructionsHaveOnlyTheirWords c
  exact ⟨(headWords 0x0000).1.mpr rfl, (headWords 0x0008).2.1.mpr rfl, ((headWords 0x000C).2.2 0).mpr rfl,
    ((headWords 0x000F).2.2 3).mpr rfl⟩

/-- Settles O16: the head rows produce the first three, and for the others the table's own check (R78) asks the encoder
for a word, which decodes back (O20). -/
theorem encodableVariantsAreProduced : Obligations.EncodableVariantsAreProduced := by
  intro c
  have headWords := headInstructionsHaveOnlyTheirWords c
  have produced : ∀ {i : Instr}, (encode c.params i).isSome = true → ∃ w, decode c.params w = .ok i :=
    (encodeFindsEveryDecodedInstruction c _).mp
  obtain ⟨_, _, _, hreachable⟩ := c.rules_checked
  simp only [Params.reachable, Bool.and_eq_true, List.all_eq_true] at hreachable
  obtain ⟨⟨⟨hpush, hpop⟩, hctrl⟩, hwaitB⟩ := hreachable
  exact ⟨⟨_, (headWords _).1.mpr rfl⟩, ⟨_, (headWords _).2.1.mpr rfl⟩, fun k => ⟨_, ((headWords _).2.2 k).mpr rfl⟩,
    produced hpush, produced hpop, fun e he => produced (hctrl e he),
    fun o ho => produced (hwaitB o (ho ▸ o.mem_allOperands))⟩

/-- Where the first matching row stands, and what the parameters give to its recipe (R81, R101). -/
theorem Config.decode_at_row {c : Config} {before after : List Row} {r : Row} {w : Word}
    (hrules : c.params.rules = before ++ r :: after) (hbefore : ∀ q ∈ before, w &&& q.mask ≠ q.expected) :
    c.params.Gives r r.recipe
      ∧ (w &&& r.mask = r.expected → decode c.params w = .ok (r.recipe.apply c.params.destBit w)) :=
  ⟨c.gives (by simp [hrules]), firstMatchingRowDecides c before after r w hrules hbefore⟩

/-- Settles O7: the row's recipe builds the instruction, and the parameters name its operation or format. -/
theorem controlRowsDecode : Obligations.ControlRowsDecode := by
  intro c before after r w hrules hbefore hr
  obtain ⟨hgives, hdecode⟩ := Config.decode_at_row hrules hbefore
  rw [hdecode hr]
  refine ⟨fun h => ?_, fun h => ?_, fun op h => ?_, fun fmt h => ?_⟩ <;> rw [h] at hgives ⊢
  · rfl
  · rfl
  · obtain ⟨e, he, hname, _⟩ := hgives
    exact ⟨rfl, e, he, hname⟩
  · refine ⟨hgives.1, ?_⟩
    rcases fmt with _ | _ | _ | _ | _ | _ | _ | (_ | _ | _) <;> rfl

/-- Settles O8: the recipe builds the form, and the 9-bit form keeps `DEST_BIT` clear of its code. -/
theorem singleRegisterRowsDecode : Obligations.SingleRegisterRowsDecode := by
  intro c before after r w op hrules hbefore hr
  obtain ⟨h8, h15, _⟩ := c.destBit_bounds
  rw [(Config.decode_at_row hrules hbefore).2 hr]
  refine ⟨fun h => ⟨h8, h15, by rw [h]; rfl⟩, fun h => ⟨?_, h15, by rw [h]; rfl⟩⟩
  exact Config.nine_le_destBit_of_sreg9 (c := c) (r := r) (by simp [hrules]) (by rw [h]; rfl)

/-- Settles O9: the row of a bit-indexed variant tests its class bits and nothing else. -/
theorem bitIndexedRowsDecode : Obligations.BitIndexedRowsDecode := by
  intro c before after r w hrules hbefore
  obtain ⟨hgives, hdecode⟩ := Config.decode_at_row hrules hbefore
  refine ⟨fun h => ?_, fun h => ?_, fun h => ?_⟩ <;> rw [h] at hgives <;> cases hgives <;> exact hdecode

/-- Settles O10: the row of a routing variant tests its class and nothing else. -/
theorem routingRowsDecode : Obligations.RoutingRowsDecode := by
  intro c before after r w hrules hbefore
  obtain ⟨hgives, hdecode⟩ := Config.decode_at_row hrules hbefore
  refine ⟨fun h => ?_, fun h => ?_, fun h => ?_, fun h => ?_⟩ <;> rw [h] at hgives <;> cases hgives <;> exact hdecode

/-- A word under the mask of an immediate row is its high byte, in place (R77). -/
theorem and_highByteMask (w : Word) : w &&& 0xFF00 = (w.extractLsb' 8 8).setWidth 16 <<< 8 := by
  apply BitVec.eq_of_getLsbD_eq
  intro j hj
  rw [setWidth_bit _ hj, ← slice_eq_extractLsb', slice_getLsbD, BitVec.getLsbD_and]
  interval_cases j <;> simp

/-- Settles O12: the operation has one entry, so its row tests that entry's byte. -/
theorem immediateRowsDecode : Obligations.ImmediateRowsDecode := by
  intro c before after r w e hrules hbefore he hrecipe hbyte
  obtain ⟨_, hdecode⟩ := Config.decode_at_row hrules hbefore
  obtain ⟨e', he', hop, rfl⟩ := Config.immEntry_of_imm8_row (c := c) (r := r) (by simp [hrules]) hrecipe
  obtain rfl := Config.immEntry_unique he' he hop
  rw [hdecode ((and_highByteMask w).trans (by rw [hbyte]; rfl))]
  cases hcase : e'.op <;> simp only [ImmEntry.row, hcase] <;> rfl

@[simp] theorem LabelWidth.extract_width (n : LabelWidth) (w : Word) : (n.extract w).width = n := by
  cases n <;> rfl

/-- The label of a word is its low bits, with nothing added (R72, R193). -/
@[simp] theorem LabelWidth.extract_value (n : LabelWidth) (w : Word) : (n.extract w).value = w.toNat % 2 ^ n.bits := by
  cases n <;> simp [LabelWidth.extract, LabelWidth.bits]

/-- Settles O13: the row of a control-transfer variant tests its pattern, and its recipe reads the label at the variant's
width. -/
theorem controlTransferRowsDecode : Obligations.ControlTransferRowsDecode := by
  intro c before after r w n j hrules hbefore hrecipe entry hw
  obtain ⟨hgives, hdecode⟩ := Config.decode_at_row hrules hbefore
  rw [hrecipe] at hgives
  have hentry : n = entry.width ∧ r = entry.row j := by
    cases j <;> exact hgives
  obtain ⟨rfl, rfl⟩ := hentry
  refine ⟨rfl, entry.width.extract w, by simp, by simp, ?_⟩
  rw [hdecode hw]
  cases j <;> rfl

/-- Settles O60: by evaluation of EX1's table at each word. -/
theorem sampleWordsOfEveryFamily : Obligations.SampleWordsOfEveryFamily :=
  ⟨rfl, rfl, rfl, rfl, rfl, rfl, rfl, rfl⟩

end Sys2Proof
end

section
/-! What a step does with each input, and the combinational law it keeps (spec/20_memory.md, section 5, and
spec/70_reset_and_hazards.md). -/

namespace Sys2Proof

/-- The identities of a configuration's port type are `Error` and the valid ones (R30). -/
theorem Params.hasIdentity_iff {p : Params} {x : Identity} :
    p.hasIdentity x = true ↔ x = .error ∨ x ∈ p.validIdentities := by
  cases x <;> simp [Params.hasIdentity, Params.validIdentities]

namespace Machine

/-- The word at the decoder's input port, and at its output ports the word's decode (R21, R22, R240). -/
def State.drive (w : Word) (s : State) : State :=
  { s with word := w, out := decode s.cfg.params w, ports := flatPorts w (decode s.cfg.params w) }

theorem DecodesTo.eq_drive {s t : State} {w : Word} (h : DecodesTo s w t) : t = s.drive w := by
  obtain ⟨hframe, hout, hports⟩ := h
  rw [State.SameButOutput, hout, hports] at hframe
  exact hframe

/-- What runs for a word drives the word's decode (R59, R100). -/
theorem exec_instructionOf (s : State) (w : Word) : exec (s.instructionOf w) (s.presentWord w) = .next (s.drive w) := by
  obtain ⟨t, hexec, hout, hports, hframe⟩ := exec_substituted s.cfg.params w (s.presentWord w)
  rw [State.instructionOf, hexec, DecodesTo.eq_drive ⟨hframe, hout, hports⟩]

section
variable {s : State} {rest : List Input}

theorem step_of_streamWord {w : Word} (hi : s.inputs = []) (hw : wordAt s.stream s.nextWord = some w) :
    step s = .next (s.drive w).record := by
  rw [step_of_activity_streamWord (activity_of_word hi hw), exec_instructionOf, onNext_next]

theorem step_of_ended_run {r : Run} {runs : List Run} (hi : s.inputs = []) (hw : wordAt s.stream s.nextWord = none)
    (hs : s.suspended = r :: runs) : step s = .next (s.resume r runs) :=
  step_of_activity_answered (activity_of_suspended hi hw hs)

theorem step_of_idle (hi : s.inputs = []) (hw : wordAt s.stream s.nextWord = none) (hs : s.suspended = []) :
    step s = .next s :=
  step_of_activity_answered (activity_of_idle hi hw hs)

theorem step_of_word {w : Word} (hi : s.inputs = .word w :: rest) :
    step s = .next (({ s with inputs := rest } : State).drive w) :=
  (step_of_activity_portWord (activity_of_input hi)).trans (exec_instructionOf _ w)

theorem step_of_code {a : Byte} (hi : s.inputs = .code a :: rest) :
    step s = .next (({ s with inputs := rest } : State).presentCode a) :=
  step_of_activity_answered (activity_of_input hi)

theorem step_of_identity {x : Identity} (hi : s.inputs = .identity x :: rest)
    (hx : s.cfg.params.hasIdentity x = true) :
    step s = .next (({ s with inputs := rest } : State).presentIdentity x) :=
  step_of_activity_answered ((activity_of_input hi).trans (if_pos hx))

theorem step_of_name {n : Name} (hi : s.inputs = .name n :: rest) :
    step s = .next (({ s with inputs := rest } : State).presentName n) :=
  step_of_activity_answered (activity_of_input hi)

theorem step_of_stream {bytes : List Byte} (hi : s.inputs = .stream bytes :: rest) :
    step s = .next (({ s with inputs := rest } : State).presentStream bytes) :=
  step_of_activity_answered (activity_of_input hi)

/-- The state's updates that a step can make once the host's input, if any, is taken off the pending ones. -/
inductive Updated (u : State) : State → Prop
  | drive (w : Word) : Updated u (u.drive w)
  | record {w : Word} (hw : wordAt u.stream u.nextWord = some w) : Updated u (u.drive w).record
  | code (a : Byte) : Updated u (u.presentCode a)
  | identity {x : Identity} (hx : u.cfg.params.hasIdentity x = true) : Updated u (u.presentIdentity x)
  | name (n : Name) : Updated u (u.presentName n)
  | stream (bytes : List Byte) : Updated u (u.presentStream bytes)
  | resume {r : Run} {runs : List Run} (hr : u.suspended = r :: runs) : Updated u (u.resume r runs)
  | same : Updated u u

/-- Every next state that a step answers is such an update. -/
theorem updated_of_step {t : State} (h : step s = .next t) :
    ∃ inputs, Updated ({ s with inputs := inputs } : State) t := by
  obtain ⟨x, rest, _, hcases⟩ | ⟨hi, hcases⟩ := step_cases s
  · refine ⟨rest, ?_⟩
    rcases hcases with ⟨w, u, _, hu, hs⟩ | ⟨a, _, hs⟩ | ⟨x, _, hx, hs⟩ | ⟨x, _, _, hs⟩ | ⟨n, _, hs⟩ | ⟨bytes, _, hs⟩ <;>
      cases hs.symm.trans h
    · rw [hu.eq_drive]
      exact .drive w
    · exact .code a
    · exact .identity hx
    · exact .name n
    · exact .stream bytes
  · refine ⟨s.inputs, ?_⟩
    rcases hcases with ⟨w, u, hw, hu, hs⟩ | ⟨r, runs, _, hr, hs⟩ | ⟨_, _, hs⟩ <;> cases hs.symm.trans h
    · rw [hu.eq_drive]
      exact .record hw
    · exact .resume hr
    · exact .same

end

/-! Each update keeps the combinational law (R240). -/

section
variable {s : State}

theorem State.Coherent.drive (w : Word) (h : s.Coherent) : (s.drive w).Coherent :=
  ⟨⟨rfl, rfl⟩, h.2⟩

/-- The results of a run grow with the decode of its next word (R56). -/
theorem results_append_decode {p : Params} {bytes : List Byte} {n : Nat} {w : Word} (hw : wordAt bytes n = some w) :
    ((words bytes).take n).map (decode p) ++ [decode p w] = ((words bytes).take (n + 1)).map (decode p) := by
  rw [List.take_add_one, words_getElem?, hw, List.map_append]
  rfl

theorem State.RunCoherent.record_drive {w : Word} (h : s.RunCoherent) (hw : wordAt s.stream s.nextWord = some w) :
    (s.drive w).record.RunCoherent := by
  obtain ⟨_, hresults, hodd⟩ := h
  refine ⟨wordAt_isSome.mp (Option.isSome_iff_exists.mpr ⟨w, hw⟩), ?_, hodd⟩
  exact (congrArg (· ++ [decode s.cfg.params w]) hresults).trans (results_append_decode hw)

theorem State.Coherent.record_drive {w : Word} (h : s.Coherent) (hw : wordAt s.stream s.nextWord = some w) :
    (s.drive w).record.Coherent := by
  obtain ⟨_, hrom, hrun, hsuspended⟩ := h
  exact ⟨⟨rfl, rfl⟩, hrom, hrun.record_drive hw, hsuspended⟩

theorem State.Coherent.presentCode (a : Byte) (h : s.Coherent) : (s.presentCode a).Coherent := by
  obtain ⟨hdecoder, ⟨_, hrom⟩, hruns⟩ := h
  exact ⟨hdecoder, ⟨rfl, hrom⟩, hruns⟩

theorem State.Coherent.presentIdentity {x : Identity} (hx : s.cfg.params.hasIdentity x = true) (h : s.Coherent) :
    (s.presentIdentity x).Coherent := by
  obtain ⟨hdecoder, ⟨hcode, _, _, _, hparsed⟩, hruns⟩ := h
  exact ⟨hdecoder, ⟨hcode, hx, rfl, rfl, hparsed⟩, hruns⟩

theorem State.Coherent.presentName (n : Name) (h : s.Coherent) : (s.presentName n).Coherent := by
  obtain ⟨hdecoder, ⟨hcode, hid, hshort, hvendor, _⟩, hruns⟩ := h
  exact ⟨hdecoder, ⟨hcode, hid, hshort, hvendor, rfl⟩, hruns⟩

/-- A run that has just begun has no results yet. -/
theorem State.RunCoherent.presentStream (s : State) (bytes : List Byte) : (s.presentStream bytes).RunCoherent :=
  ⟨Nat.zero_le _, rfl, rfl⟩

theorem State.Coherent.presentStream (bytes : List Byte) (h : s.Coherent) : (s.presentStream bytes).Coherent := by
  obtain ⟨hdecoder, hrom, hrun, hsuspended⟩ := h
  refine ⟨hdecoder, hrom, State.RunCoherent.presentStream s bytes, fun r hr => ?_⟩
  rw [State.presentStream_suspended, State.runsToResume_eq] at hr
  split at hr
  · obtain rfl | hr := List.mem_cons.mp hr
    · exact hrun
    · exact hsuspended r hr
  · exact hsuspended r hr

theorem State.Coherent.resume {r : Run} {runs : List Run} (hs : s.suspended = r :: runs) (h : s.Coherent) :
    (s.resume r runs).Coherent := by
  obtain ⟨hdecoder, hrom, _, hsuspended⟩ := h
  exact ⟨hdecoder, hrom, hsuspended r (by simp [hs]), fun q hq => hsuspended q (by simp [hs, show q ∈ runs from hq])⟩

end

end Machine

open Machine

/-- Settles O55: taking an input off the pending ones leaves every port and run alone, and each update keeps the law. -/
theorem stepKeepsCoherence : Obligations.StepKeepsCoherence := by
  intro s t hs hstep
  obtain ⟨inputs, hupdated⟩ := updated_of_step hstep
  have hu : ({ s with inputs := inputs } : State).Coherent := hs
  cases hupdated with
  | drive w => exact hu.drive w
  | record hw => exact hu.record_drive hw
  | code a => exact hu.presentCode a
  | identity hx => exact hu.presentIdentity hx
  | name n => exact hu.presentName n
  | stream bytes => exact hu.presentStream bytes
  | resume hr => exact hu.resume hr
  | same => exact hu

/-- Settles O53: no update of the state touches the configuration. -/
theorem stepKeepsTheConfiguration : Obligations.StepKeepsTheConfiguration := by
  intro s t hstep
  obtain ⟨_, hupdated⟩ := updated_of_step hstep
  cases hupdated <;> rfl

/-- Settles O52: of all that a step can do, one thing is a refusal, and it names an identity that the configuration does
not have. -/
theorem onlyAForeignIdentityIsRefused : Obligations.OnlyAForeignIdentityIsRefused := by
  intro s
  obtain ⟨x, rest, hi, hcases⟩ | ⟨_, hcases⟩ := step_cases s
  · rcases hcases with ⟨_, t, _, _, hs⟩ | ⟨_, _, hs⟩ | ⟨_, _, _, hs⟩ | ⟨x, rfl, hx, hs⟩ | ⟨_, _, hs⟩ | ⟨_, _, hs⟩
    · exact .inl ⟨_, hs⟩
    · exact .inl ⟨_, hs⟩
    · exact .inl ⟨_, hs⟩
    · obtain ⟨herror, hvalid⟩ : x ≠ .error ∧ x ∉ s.cfg.params.validIdentities := by
        rw [← not_or, ← Params.hasIdentity_iff, hx]
        decide
      exact .inr ⟨x, rest, hi, herror, hvalid, hs⟩
    · exact .inl ⟨_, hs⟩
    · exact .inl ⟨_, hs⟩
  · rcases hcases with ⟨_, t, _, _, hs⟩ | ⟨_, _, _, _, hs⟩ | ⟨_, _, hs⟩ <;> exact .inl ⟨_, hs⟩

/-- The block before any input is presented meets the law, whatever its configuration. -/
theorem powerUp_coherent (c : Config) : (State.powerUp c).Coherent := by
  have hnop : decode c.params 0x0000 = .ok .nop := (sourceSamplesDecode c).1
  exact ⟨⟨hnop.symm, rfl⟩, ⟨rfl, rfl, rfl, rfl, rfl⟩, ⟨Nat.zero_le _, rfl, rfl⟩, by rintro _ ⟨⟩⟩

/-- Settles O56: the block's own configuration is one of the admitted ones, and an empty stream has no word. -/
theorem resetIsCoherent : Obligations.ResetIsCoherent :=
  ⟨powerUp_coherent Config.block, rfl⟩

end Sys2Proof
end

section
/-! Masks, operand bits and decoded operands in an admitted table (spec/30_encoding.md and spec/10_state.md). -/

namespace Sys2Proof

/-- Where two rows agree under both masks, the OR of their match values holds each, because neither has a match bit outside
its own mask (R73). -/
theorem Config.hits_or_of_agree {c : Config} {q r : Row} (hq : q ∈ c.params.rules) (hr : r ∈ c.params.rules)
    (h : ∀ j, q.mask.getLsbD j = true → r.mask.getLsbD j = true → q.expected.getLsbD j = r.expected.getLsbD j) :
    q.hits (q.expected ||| r.expected) = true := by
  rw [Row.hits_iff]
  refine BitVec.eq_of_getLsbD_eq fun j _ => ?_
  have hqj := c.mask_getLsbD_of_expected hq (j := j)
  have hrj := c.mask_getLsbD_of_expected hr (j := j)
  have hj := h j
  simp only [BitVec.getLsbD_and, BitVec.getLsbD_or]
  grind

theorem agree_of_xor_and_eq_zero {e e' m m' : Word} (h : (e ^^^ e') &&& m &&& m' = 0) (j : Nat)
    (hm : m.getLsbD j = true) (hm' : m'.getLsbD j = true) : e.getLsbD j = e'.getLsbD j := by
  simpa [hm, hm'] using congrArg (fun v : Word => v.getLsbD j) h

/-- Settles O17: a common word fixes both match values under its bits; and where they agree under both masks, each row
matches the OR of them. -/
theorem overlapOfTwoRows : Obligations.OverlapOfTwoRows := by
  intro c q r hq hr
  have joined (h : (q.expected ^^^ r.expected) &&& q.mask &&& r.mask = 0) :
      q.hits (q.expected ||| r.expected) = true ∧ r.hits (q.expected ||| r.expected) = true := by
    have agree := agree_of_xor_and_eq_zero h
    refine ⟨c.hits_or_of_agree hq hr agree, ?_⟩
    rw [BitVec.or_comm]
    exact c.hits_or_of_agree hr hq fun j hrj hqj => (agree j hqj hrj).symm
  refine ⟨⟨?_, fun h => ⟨_, joined h⟩⟩, joined⟩
  rintro ⟨w, hqw, hrw⟩
  rw [← Row.hits_iff.mp hqw, ← Row.hits_iff.mp hrw]
  refine BitVec.eq_of_getLsbD_eq fun j _ => ?_
  simp only [BitVec.getLsbD_and, BitVec.getLsbD_xor]
  cases q.mask.getLsbD j <;> cases r.mask.getLsbD j <;> simp

/-- A mask of `n + 1` ones at the bottom. -/
theorem lowMask_getLsbD_iff {n : Nat} (h : n < 16) (k : Nat) :
    (BitVec.ofNat 16 (2 ^ (n + 1) - 1)).getLsbD k = true ↔ k ≤ n := by
  rw [BitVec.getLsbD_ofNat, Nat.testBit_two_pow_sub_one, Bool.and_eq_true, decide_eq_true_iff, decide_eq_true_iff]
  omega

/-- The bits a recipe of this shape reads as operands, by number (R74). -/
def Format.operandBit (destBit k : Nat) : Format → Prop
  | .none => False
  | .sleep2 => k ≤ 1
  | .sreg8 => k ≤ 7 ∨ k = destBit
  | .sreg9 => k ≤ 8 ∨ k = destBit
  | .bitidx => k ≤ 10
  | .route => k ≤ 4
  | .imm8 => k ≤ 7
  | .label .w8 => k ≤ 7
  | .label .w10 => k ≤ 9
  | .label .w12 => k ≤ 11

theorem Format.operandMask_getLsbD_iff (fmt : Format) {destBit : Nat} (h15 : destBit ≤ 15) (k : Nat) :
    (fmt.operandMask destBit).getLsbD k = true ↔ fmt.operandBit destBit k := by
  have hdest : (BitVec.twoPow 16 destBit).getLsbD k = true ↔ k = destBit := by
    rw [BitVec.getLsbD_twoPow, Bool.and_eq_true, decide_eq_true_iff, decide_eq_true_iff]
    omega
  have low (n : Nat) (h : n < 16) := lowMask_getLsbD_iff h k
  rcases fmt with _ | _ | _ | _ | _ | _ | _ | (_ | _ | _)
  · simp [Format.operandMask, Format.operandBit]
  · exact low 1 (by decide)
  · rw [Format.operandMask, BitVec.getLsbD_or, Bool.or_eq_true, hdest]
    exact or_congr_left (low 7 (by decide))
  · rw [Format.operandMask, BitVec.getLsbD_or, Bool.or_eq_true, hdest]
    exact or_congr_left (low 8 (by decide))
  · exact low 10 (by decide)
  · exact low 4 (by decide)
  · exact low 7 (by decide)
  · exact low 7 (by decide)
  · exact low 9 (by decide)
  · exact low 11 (by decide)

/-- Settles O15: the operand mask of a shape holds the shape's bits and is clear in the row's mask (R74). -/
theorem operandBitsDoNotDecideMatching : Obligations.OperandBitsDoNotDecideMatching := by
  intro c r hr isOperand
  obtain ⟨_, h15, _⟩ := c.destBit_bounds
  have hmask (k : Nat) : (r.recipe.format.operandMask c.params.destBit).getLsbD k = true ↔ isOperand k := by
    refine (Format.operandMask_getLsbD_iff _ h15 k).trans ?_
    simp only [isOperand]
    rcases r.recipe.format with _ | _ | _ | _ | _ | _ | _ | (_ | _ | _) <;> exact Iff.rfl
  refine ⟨fun k hk => c.mask_getLsbD_of_operand hr ((hmask k).mpr hk), hmask, fun w v hwv => ?_⟩
  have hsame : w &&& r.mask = v &&& r.mask := by
    refine BitVec.eq_of_getLsbD_eq fun k _ => ?_
    rw [BitVec.getLsbD_and, BitVec.getLsbD_and]
    by_cases hk : isOperand k
    · rw [c.mask_getLsbD_of_operand hr ((hmask k).mpr hk), Bool.and_false, Bool.and_false]
    · rw [hwv k hk]
  rw [Row.hits, Row.hits, hsame]

/-- An instruction that a recipe builds is a value of the configuration's type, if its parameters give it a row. -/
theorem Recipe.apply_wellFormed {p : Params} {r : Row} {rc : Recipe} (destBit : Nat) (w : Word) (h : p.Gives r rc) :
    (rc.apply destBit w).wellFormed p = true := by
  rcases rc with (_ | _ | _ | _ | op) | _ | op | op | (_ | _ | _) | (_ | _ | _ | _) | (_ | _ | op) | ⟨n, (_ | _ | _ | _)⟩
    | fmt
  case none.ctrl =>
    obtain ⟨e, he, hname, _⟩ := h
    exact List.any_eq_true.mpr ⟨e, he, by simpa using hname⟩
  case sreg8 =>
    obtain ⟨e, he, hname, hform, _⟩ := h
    exact List.any_eq_true.mpr ⟨e, he, by simp [hname, hform]⟩
  case sreg9 =>
    obtain ⟨e, he, hname, hform, _⟩ := h
    exact List.any_eq_true.mpr ⟨e, he, by simp [hname, hform]⟩
  case imm8.other =>
    obtain ⟨e, he, hop, _⟩ := h
    exact List.any_eq_true.mpr ⟨e, he, by simpa using hop⟩
  case label.ct0 | label.ct1 | label.ct2 | label.ct3 => simp [Recipe.apply, Instr.wellFormed, h.1]
  case waitB => simp [Recipe.apply, Instr.wellFormed, h.1]
  all_goals rfl

/-- Settles O18: a decoded instruction is built by a row of the table, and each row is given by parameters. -/
theorem decodedInstructionsAreWellFormed : Obligations.DecodedInstructionsAreWellFormed := by
  intro c w i h
  obtain ⟨before, r, after, hrules, _, _, rfl⟩ := decode_eq_ok_iff.mp h
  exact Recipe.apply_wellFormed _ w (c.gives (by simp [hrules]))

/-- The normalised code of an extended reference that a word holds is the word's low byte (R28, R67). -/
theorem norm_extended_slice (w : Word) : (RegRef.extended (slice 0 9 w)).norm = w.extractLsb' 0 8 := by
  rw [← slice_eq_extractLsb']
  refine BitVec.eq_of_getLsbD_eq fun k hk => ?_
  rw [RegRef.norm, BitVec.getLsbD_setWidth, slice_getLsbD, slice_getLsbD]
  simp [hk, show k < 9 by omega]

/-- Whatever the shape, a register reference read from a word normalises to the word's low byte (R66 to R68). -/
theorem norm_of_regRef_extract {fmt : Format} {destBit : Nat} {w : Word} {f : RegRef}
    (h : (fmt.extract destBit w).regRef = some f) : f.norm = w.extractLsb' 0 8 := by
  cases fmt <;> cases h
  case sreg9 => exact norm_extended_slice w
  all_goals rfl

/-- Settles O19: every register reference of a decoded instruction is one that its recipe's shape reads. -/
theorem decodedRegisterIsTheLowByte : Obligations.DecodedRegisterIsTheLowByte := by
  intro c w i h
  obtain ⟨_, r, _, _, _, _, rfl⟩ := decode_eq_ok_iff.mp h
  constructor
  · rw [Recipe.apply_operands]
    exact fun f => norm_of_regRef_extract
  · generalize r.recipe = rc
    have hextended := congrArg (fun a => some (resolve c.params a)) (norm_extended_slice w)
    rcases rc with (_ | _ | _ | _ | op) | _ | op | op | (_ | _ | _) | (_ | _ | _ | _) | (_ | _ | op)
      | ⟨n, (_ | _ | _ | _)⟩ | (_ | _ | _ | _ | _ | _ | _ | _)
    case sreg9 | waitB.sreg9 => exact hextended
    all_goals rfl

end Sys2Proof
end

section
/-! The order of the two shared-byte rows, and the configuration checks (spec/45_immediate.md and
spec/70_reset_and_hazards.md, section 2). -/

namespace Sys2Proof

/-- Where one search ends before another, a list splits at the first's element, and nothing up to it meets the second. -/
theorem split_of_findIdx_lt {α : Type} {f g : α → Bool} {l : List α} (h : l.findIdx f < l.findIdx g) :
    ∃ pre x post, l = pre ++ x :: post ∧ f x = true ∧ ∀ y ∈ pre ++ [x], g y = false := by
  induction l with
  | nil => exact absurd h (Nat.lt_irrefl _)
  | cons y l ih =>
    rw [List.findIdx_cons, List.findIdx_cons] at h
    cases hg : g y with
    | true => simp [hg] at h
    | false =>
      cases hf : f y with
      | true => exact ⟨[], y, l, rfl, hf, by simpa using hg⟩
      | false =>
        obtain ⟨pre, x, post, rfl, hx, hpre⟩ := ih (by simpa [hf, hg] using h)
        exact ⟨y :: pre, x, post, rfl, hx, by simpa [hg] using hpre⟩

theorem Recipe.variant_eq_imm_iff {rc : Recipe} {op : ImmOp} : rc.variant = .imm op ↔ rc = .imm8 op := by
  rcases rc with (_ | _ | _ | _ | _) | _ | _ | _ | (_ | _ | _) | (_ | _ | _ | _) | _ | _ | _ <;> simp [Recipe.variant]

theorem Params.mem_immOps_of_immByte {p : Params} {op : ImmOp} {b : Byte} (h : p.immByte op = some b) :
    (⟨op, b⟩ : ImmEntry) ∈ p.immOps := by
  obtain ⟨e, he, rfl⟩ := Option.map_eq_some_iff.mp h
  have hop : e.op = op := by simpa using List.find?_some he
  exact hop ▸ List.mem_of_find?_eq_some he

/-- The two named immediate operations have one byte (R180). -/
theorem Config.shared_immByte (c : Config) :
    ∃ b : Byte, (⟨.moveImmToP1, b⟩ : ImmEntry) ∈ c.params.immOps ∧ (⟨.moveImmToP2, b⟩ : ImmEntry) ∈ c.params.immOps := by
  obtain ⟨_, _, _, h, _⟩ := c.families_checked
  simp only [Params.immOpsOk, Bool.and_eq_true, beq_iff_eq] at h
  obtain ⟨⟨_, hsome⟩, hsame⟩ := h
  obtain ⟨b, hb⟩ := Option.isSome_iff_exists.mp hsome
  exact ⟨b, Params.mem_immOps_of_immByte hb, Params.mem_immOps_of_immByte (hsame ▸ hb)⟩

/-- Of two operations with one byte, the one whose row stands later is never decoded: the earlier row matches every word
that the later one does. -/
theorem Config.variant_ne_of_findIdx_lt {c : Config} {first later : ImmOp} {b : Byte} {w : Word} {i : Instr}
    (hfirst : (⟨first, b⟩ : ImmEntry) ∈ c.params.immOps) (hlater : (⟨later, b⟩ : ImmEntry) ∈ c.params.immOps)
    (horder : (c.params.tail.findIdx fun r => r.recipe == .imm8 first)
      < c.params.tail.findIdx fun r => r.recipe == .imm8 later)
    (h : decode c.params w = .ok i) : i.variant ≠ some (.imm later) := by
  intro hvariant
  obtain ⟨pre, x, post, htail, hx, hpre⟩ := split_of_findIdx_lt horder
  have hrules : c.params.rules = (headRows ++ (pre ++ [x])) ++ post := by simp [Params.rules, htail]
  have hxrow : x ∈ c.params.rowsOf (.imm first) :=
    Params.mem_rowsOf.mpr ⟨by simp [hrules], Recipe.variant_eq_imm_iff.mpr (beq_iff_eq.mp hx)⟩
  rw [Config.rowsOf_imm hfirst, List.mem_singleton] at hxrow
  have hxw : x.hits w = true := by
    subst hxrow
    exact (Config.hits_of_decode_of_rowsOf (Config.rowsOf_imm hlater) hvariant h).1
  obtain ⟨before, q, after, hq, _, _, hdecode⟩ | ⟨hnone, _⟩ :=
    firstMatch_cases c.params.destBit w (headRows ++ (pre ++ [x]))
  · cases (decode_of_first_rows hrules hdecode).symm.trans h
    have hrecipe := Recipe.variant_eq_imm_iff.mp (Option.some.inj ((Recipe.apply_variant _ _ _).symm.trans hvariant))
    have hmem : q ∈ headRows ++ (pre ++ [x]) := by simp [hq]
    obtain hhead | htail := List.mem_append.mp hmem
    · simp only [headRows, List.mem_cons, List.not_mem_nil, or_false] at hhead
      rcases hhead with rfl | rfl | rfl <;> cases hrecipe
    · have hmiss := hpre q htail
      simp [hrecipe] at hmiss
  · have hmiss := hnone x (by simp)
    rw [hxw] at hmiss
    cases hmiss

/-- Settles O14: the table has the two rows in the order of `IMM_P_FIRST`, and they test one byte. -/
theorem laterMoveImmediateIsNeverEmitted : Obligations.LaterMoveImmediateIsNeverEmitted := by
  intro c w k
  obtain ⟨b, h1, h2⟩ := c.shared_immByte
  obtain ⟨_, _, horder, _⟩ := c.rules_checked
  constructor <;> intro hfirst h <;> simp only [Params.immOrderOk, hfirst, decide_eq_true_eq] at horder
  · exact Config.variant_ne_of_findIdx_lt h1 h2 horder h rfl
  · exact Config.variant_ne_of_findIdx_lt h2 h1 horder h rfl

theorem Config.load_of_admitted {p : Params} (h : p.verdict = .admitted) : Config.load p = .ok ⟨p, h⟩ := by
  unfold Config.load
  split
  · rfl
  · rename_i hrefused
    rw [h] at hrefused
    cases hrefused

/-- The control-transfer entries of an admitted configuration (R190, R191). -/
theorem Config.ct_checked (c : Config) :
    (∀ e ∈ [c.params.ct0, c.params.ct1, c.params.ct2, c.params.ct3], e.maskOk = true)
    ∧ ∀ n, n ∈ [c.params.ct0.width, c.params.ct1.width, c.params.ct2.width, c.params.ct3.width] := by
  obtain ⟨_, _, _, _, h⟩ := c.families_checked
  rw [Params.ctOk, Bool.and_eq_true, List.all_eq_true, List.all_eq_true] at h
  obtain ⟨hmasks, hwidths⟩ := h
  refine ⟨hmasks, fun n => List.contains_iff_mem.mp (hwidths n ?_)⟩
  cases n <;> simp

theorem CtEntry.maskOk_iff {e : CtEntry} : e.maskOk = true ↔
    (e.pattern.mask = 0xF000 ∨ e.pattern.mask = 0xFC00 ∨ e.pattern.mask = 0xFE00)
      ∧ e.pattern.mask &&& (Format.label e.width).operandMask 0 = 0 := by
  simp [CtEntry.maskOk]

/-- Settles O22: the verdict asks the checks in their order, and each part of the second half is one of the checks. -/
theorem configurationChecksInOrder : Obligations.ConfigurationChecksInOrder := by
  refine ⟨fun p => ⟨fun hrom => ?_, fun hrom hfamilies => ?_, fun hrom hfamilies hrules => ?_,
    fun hrom hfamilies hrules => ?_⟩, fun c => ?_⟩
  · simp [Params.verdict, hrom]
  · simp [Params.verdict, hrom, hfamilies]
  · simp [Params.verdict, hrom, hfamilies, hrules]
  · have hadmitted : p.verdict = .admitted := by simp [Params.verdict, hrom, hfamilies, hrules]
    exact ⟨⟨p, hadmitted⟩, Config.load_of_admitted hadmitted, rfl⟩
  · obtain ⟨h8, h15, _⟩ := c.destBit_bounds
    obtain ⟨_, hopc, hclass, _, _⟩ := c.families_checked
    obtain ⟨hmasks, hwidths⟩ := c.ct_checked
    refine ⟨⟨h8, h15⟩, ?_, ?_, c.shared_immByte, fun n => by simpa using hwidths n, fun e he => ?_,
      fun r hr => (c.row_wellFormed hr).1⟩
    · simpa [and_assoc] using distinct_nodup hopc
    · simpa [and_assoc] using distinct_nodup hclass
    · obtain ⟨hmask, hclear⟩ := CtEntry.maskOk_iff.mp (hmasks e (by simpa using he))
      refine ⟨hmask, ?_⟩
      cases hwidth : e.width <;> rw [hwidth] at hclear <;> exact hclear

end Sys2Proof
end

section
/-! The register-name ROM of an admitted configuration (spec/47_register_namespace.md). -/

namespace Sys2Proof

/-! Its address decode. -/

section
variable {p : Params} {a : Byte}

theorem resolve_of_data {n : Fin 32} (h : a.toNat = 0x20 + n.val) : resolve p a = .data n := by
  rw [resolve, dif_pos ⟨by omega, by omega⟩]
  simp [h]

theorem resolve_of_high (h : 0x40 ≤ a.toNat) : resolve p a = .error := by
  rw [resolve, dif_neg (by omega), if_neg (by omega)]

theorem resolve_of_low (h : a.toNat ≤ 0x1F) : resolve p a = (p.sfrAt a.toNat).elim .error .named := by
  rw [resolve, dif_neg (by omega), if_pos h]
  cases p.sfrAt a.toNat <;> rfl

/-- The three ranges of a code (R200, decision D15). -/
theorem address_cases (a : Byte) : a.toNat ≤ 0x1F ∨ (∃ n : Fin 32, a.toNat = 0x20 + n.val) ∨ 0x40 ≤ a.toNat := by
  by_cases hlow : a.toNat ≤ 0x1F
  · exact .inl hlow
  · by_cases hhigh : 0x40 ≤ a.toNat
    · exact .inr (.inr hhigh)
    · exact .inr (.inl ⟨⟨a.toNat - 0x20, by omega⟩, by simp only; omega⟩)

theorem resolve_eq_data_iff {n : Fin 32} : resolve p a = .data n ↔ a.toNat = 0x20 + n.val := by
  refine ⟨fun h => ?_, resolve_of_data⟩
  obtain hlow | ⟨m, hm⟩ | hhigh := address_cases a
  · rw [resolve_of_low hlow] at h
    cases hat : p.sfrAt a.toNat <;> rw [hat] at h <;> cases h
  · rw [resolve_of_data hm] at h
    cases h
    exact hm
  · cases (resolve_of_high hhigh).symm.trans h

theorem resolve_eq_named_iff {s : NamedSfr} :
    resolve p a = .named s ↔ a.toNat ≤ 0x1F ∧ p.sfrLow[a.toNat]? = some (some s) := by
  rw [← Option.join_eq_some_iff]
  obtain hlow | ⟨n, hn⟩ | hhigh := address_cases a
  · rw [resolve_of_low hlow, Params.sfrAt]
    cases p.sfrLow[a.toNat]?.join <;> simp [hlow]
  · rw [resolve_of_data hn]
    simp [show ¬a.toNat ≤ 0x1F by omega]
  · rw [resolve_of_high hhigh]
    simp [show ¬a.toNat ≤ 0x1F by omega]

theorem resolve_eq_error_iff_of_low (h : a.toNat ≤ 0x1F) : resolve p a = .error ↔ p.sfrAt a.toNat = none := by
  rw [resolve_of_low h]
  cases p.sfrAt a.toNat <;> simp

end

/-- Settles O27: the data range and the high range do not ask `SFR_LOW`, and the low range holds its 32 entries. -/
theorem resolveByAddress : Obligations.ResolveByAddress := by
  intro c a
  refine ⟨fun n => resolve_eq_data_iff, resolve_of_high, fun hlow s => ?_, fun hlow => ?_⟩
  · rw [resolve_eq_named_iff, and_iff_right hlow]
  · have hlength := c.sfrLow_checked.1
    rw [resolve_eq_error_iff_of_low hlow, Params.sfrAt, List.getElem?_eq_getElem (by omega)]
    simp

/-- An injective `SFR_LOW` holds a name at one address (R31). -/
theorem index_unique_of_nodup_filterMap {α : Type} {l : List (Option α)} (h : (l.filterMap id).Nodup) {i j : Nat} {x : α}
    (hi : l[i]? = some (some x)) (hj : l[j]? = some (some x)) : i = j := by
  obtain ⟨hi, hix⟩ := List.getElem?_eq_some_iff.mp hi
  obtain ⟨hj, hjx⟩ := List.getElem?_eq_some_iff.mp hj
  have hpairs := List.pairwise_iff_getElem.mp (List.pairwise_filterMap.mp h)
  rcases Nat.lt_trichotomy i j with hlt | heq | hlt
  · exact absurd rfl (hpairs i j hi hj hlt x hix x hjx)
  · exact heq
  · exact absurd rfl (hpairs j i hj hi hlt x hjx x hix)

/-- Settles O28: `SFR_LOW` holds every named identity of the configuration, each once, and no other. -/
theorem namedIdentitiesHaveOneAddress : Obligations.NamedIdentitiesHaveOneAddress := by
  intro c
  obtain ⟨hlength, hnodup, hpresent, hlisted⟩ := c.sfrLow_checked
  constructor
  · intro s hs
    obtain ⟨i, hi, hat⟩ := List.mem_iff_getElem.mp (hpresent s hs)
    have haddress : (BitVec.ofNat 8 i).toNat = i := (BitVec.toNat_ofNat i 8).trans (Nat.mod_eq_of_lt (by omega))
    have hsome : c.params.sfrLow[i]? = some (some s) := List.getElem?_eq_some_iff.mpr ⟨hi, hat⟩
    refine ⟨BitVec.ofNat 8 i, by omega, resolve_eq_named_iff.mpr ⟨by omega, by rw [haddress, hsome]⟩, fun b hb => ?_⟩
    have hb := index_unique_of_nodup_filterMap hnodup (resolve_eq_named_iff.mp hb).2 hsome
    exact BitVec.eq_of_toNat_eq (hb.trans haddress.symm)
  · intro a s h
    exact hlisted s (List.mem_of_getElem? (resolve_eq_named_iff.mp h).2)

/-- Settles O29: the two references have one normalised code. -/
theorem extendedCodeResolvesByItsLowByte : Obligations.ExtendedCodeResolvesByItsLowByte := by
  intro c e a h
  have hnorm : (RegRef.extended e).norm = (RegRef.direct a).norm :=
    BitVec.eq_of_toNat_eq ((BitVec.toNat_setWidth 8 e).trans h)
  rw [hnorm]

/-! Its name columns. -/

theorem goodText_iff {n : Name} : goodText n = true ↔ n ≠ [] ∧ ∀ ch ∈ n, ch.toNat < 128 := by
  simp [goodText]

section
variable {c : Config} {x y : Identity}

theorem Config.renderShort_inj (hx : x ∈ c.params.validIdentities) (hy : y ∈ c.params.validIdentities)
    (h : renderShort c.params x = renderShort c.params y) : x = y :=
  List.inj_on_of_nodup_map c.names_checked.2.1 hx hy h

theorem Config.renderVendor_inj (hx : x ∈ c.params.validIdentities) (hy : y ∈ c.params.validIdentities)
    (h : renderVendor c.params x = renderVendor c.params y) : x = y :=
  List.inj_on_of_nodup_map c.names_checked.2.2.1 hx hy h

end

/-- Settles O30: each part is one of the checks of the names (R33, R34). -/
theorem namesAreInjective : Obligations.NamesAreInjective := by
  intro c x y hx hy
  obtain ⟨hgood, _, _, _, hshort, hvendor, _⟩ := c.names_checked
  obtain ⟨hgoodShort, hgoodVendor⟩ := hgood x hx
  obtain ⟨hshortNe, hshortAscii⟩ := goodText_iff.mp hgoodShort
  obtain ⟨hvendorNe, hvendorAscii⟩ := goodText_iff.mp hgoodVendor
  exact ⟨Config.renderShort_inj hx hy, Config.renderVendor_inj hx hy,
    fun h => hshort (List.mem_map.mpr ⟨x, hx, h⟩), fun h => hvendor (List.mem_map.mpr ⟨x, hx, h⟩),
    hshortNe, hshortAscii, hvendorNe, hvendorAscii⟩

/-! `parse_short`. -/

/-- The exact path: the name of a valid identity finds it, since no other has that name (R206, R207). -/
theorem Config.parseShort_renderShort {c : Config} {x : Identity} (hx : x ∈ c.params.validIdentities) :
    parseShort c.params (renderShort c.params x) = some x := by
  rw [parseShort]
  cases hfind : c.params.validIdentities.find? fun id => renderShort c.params id == renderShort c.params x with
  | some y =>
    have hsame : renderShort c.params y = renderShort c.params x := by simpa using List.find?_some hfind
    exact congrArg some (Config.renderShort_inj (List.mem_of_find?_eq_some hfind) hx hsame)
  | none => exact absurd (beq_self_eq_true _) (List.find?_eq_none.mp hfind x hx)

/-- The numeric path: what is no valid identity's name is read as digits or not at all (R207). -/
theorem parseShort_of_no_name {p : Params} {n : Name} (h : n ∉ p.validIdentities.map (renderShort p)) :
    parseShort p n = parseData n := by
  have hfind : (p.validIdentities.find? fun id => renderShort p id == n) = none := by
    simpa using h
  rw [parseShort, hfind]

theorem Params.data_mem_validIdentities (p : Params) (n : Fin 32) : .data n ∈ p.validIdentities := by
  simp [Params.validIdentities]

theorem Params.error_not_mem_validIdentities (p : Params) : .error ∉ p.validIdentities := by
  simp [Params.validIdentities]

/-- Settles O31: on the exact path. -/
theorem parseShortInvertsRenderShort : Obligations.ParseShortInvertsRenderShort :=
  fun _ _ hx => Config.parseShort_renderShort hx

theorem parseData_of_lt {n ds : Name} (hn : dataDigits n = some ds) (h : digitsValue ds < 32) :
    parseData n = some (.data ⟨digitsValue ds, h⟩) := by
  rw [parseData, hn]
  exact dif_pos h

theorem parseData_of_le {n ds : Name} (hn : dataDigits n = some ds) (h : 32 ≤ digitsValue ds) : parseData n = none := by
  rw [parseData, hn]
  exact dif_neg (Nat.not_lt.mpr h)

theorem parseData_eq_none {n : Name} (hn : dataDigits n = none) : parseData n = none := by
  rw [parseData, hn]

theorem parseData_eq_some {n : Name} {x : Identity} (h : parseData n = some x) : ∃ k, x = .data k := by
  cases hn : dataDigits n with
  | none => cases (parseData_eq_none hn).symm.trans h
  | some ds =>
    by_cases hlt : digitsValue ds < 32
    · exact ⟨_, (Option.some.inj ((parseData_of_lt hn hlt).symm.trans h)).symm⟩
    · cases (parseData_of_le hn (Nat.not_lt.mp hlt)).symm.trans h

/-- Settles O33: the exact path answers from the valid identities and the numeric path answers a data register; the marker
is no valid name and not numeric. -/
theorem parseShortAnswersValidIdentities : Obligations.ParseShortAnswersValidIdentities := by
  intro c
  obtain ⟨_, _, _, _, hmarker, _, hnotNumeric⟩ := c.names_checked
  have valid : ∀ n x, parseShort c.params n = some x → x ∈ c.params.validIdentities := by
    intro n x h
    by_cases hn : n ∈ c.params.validIdentities.map (renderShort c.params)
    · obtain ⟨y, hy, rfl⟩ := List.mem_map.mp hn
      rw [Config.parseShort_renderShort hy] at h
      cases h
      exact hy
    · rw [parseShort_of_no_name hn] at h
      obtain ⟨k, rfl⟩ := parseData_eq_some h
      exact c.params.data_mem_validIdentities k
  refine ⟨fun n x h => ⟨valid n x h, ?_⟩, (parseShort_of_no_name hmarker).trans (parseData_eq_none hnotNumeric)⟩
  rintro rfl
  exact c.params.error_not_mem_validIdentities (valid n _ h)

theorem isDecimalDigit_of_range {ch : Char} (h : '0' ≤ ch ∧ ch ≤ '9') : isDecimalDigit ch = true := by
  obtain ⟨h0, h9⟩ := h
  rw [isDecimalDigit, Bool.and_eq_true, decide_eq_true_iff, decide_eq_true_iff]
  exact ⟨UInt32.le_iff_toNat_le.mp h0, UInt32.le_iff_toNat_le.mp h9⟩

theorem dataDigits_of_digits {ds : Name} (hne : ds ≠ []) (h : ∀ ch ∈ ds, '0' ≤ ch ∧ ch ≤ '9') :
    dataDigits ('D' :: ds) = some ds := by
  obtain ⟨d, rest, rfl⟩ := List.exists_cons_of_ne_nil hne
  exact if_pos (List.all_eq_true.mpr fun ch hch => isDecimalDigit_of_range (h ch hch))

/-- The decimal number of a data register reads back as it (R32). -/
theorem digitsValue_decimal : ∀ n : Fin 32, digitsValue (decimal n.val) = n.val := by
  decide

/-- A numeric name that a valid identity has is that of the data register with its value: no named identity's short name
has the numeric form (R33). -/
theorem Config.eq_data_of_renderShort {c : Config} {x : Identity} {ds : Name} (hx : x ∈ c.params.validIdentities)
    (hds : dataDigits ('D' :: ds) = some ds) (h : renderShort c.params x = 'D' :: ds) :
    ∃ n : Fin 32, n.val = digitsValue ds ∧ x = .data n := by
  cases x with
  | error => exact absurd hx c.params.error_not_mem_validIdentities
  | data n =>
    obtain rfl : decimal n.val = ds := (List.cons.inj h).2
    exact ⟨n, (digitsValue_decimal n).symm, rfl⟩
  | named s =>
    have hs : s ∈ c.params.namedSet := by simpa [Params.validIdentities] using hx
    obtain ⟨_, _, _, hnotNumeric, _⟩ := c.names_checked
    cases hds.symm.trans (h ▸ hnotNumeric s hs)

/-- Settles O32: the two paths agree on a numeric name that some identity has, and the numeric path alone reads any
other. -/
theorem parseShortNumericPath : Obligations.ParseShortNumericPath := by
  intro c ds hne hdigits v
  have hds := dataDigits_of_digits hne hdigits
  by_cases hn : 'D' :: ds ∈ c.params.validIdentities.map (renderShort c.params)
  · obtain ⟨x, hx, hname⟩ := List.mem_map.mp hn
    obtain ⟨n, hval, rfl⟩ := Config.eq_data_of_renderShort hx hds hname
    have hfound := Config.parseShort_renderShort hx
    rw [hname] at hfound
    refine ⟨fun h => ?_, fun h => ?_⟩
    · have hsame : n = ⟨v, h⟩ := Fin.ext hval
      rw [hfound, hsame]
    · exact absurd n.isLt (Nat.not_lt.mpr (hval ▸ h))
  · rw [parseShort_of_no_name hn]
    exact ⟨fun h => parseData_of_lt hds h, fun h => parseData_of_le hds h⟩

/-- Settles O34: the columns' own equations, and two of the names read back (O31). -/
theorem fixedNames : Obligations.FixedNames := by
  intro c
  have hpc : .named .programCounter ∈ c.params.validIdentities := by
    simp [Params.validIdentities, Params.namedSet, firstSfrs]
  have hsr : .named .status ∈ c.params.validIdentities := by
    simp [Params.validIdentities, Params.namedSet, firstSfrs]
  exact ⟨rfl, rfl, rfl, fun _ => rfl, fun _ => rfl, parseShortInvertsRenderShort c _ hpc,
    parseShortInvertsRenderShort c _ hsr⟩

end Sys2Proof
end

section
/-! What each meaning drives, and what it leaves alone (spec/10_state.md, sections 1 and 2, and spec/41_control.md to
spec/46_control_transfer.md). Every completion is an evaluation of the meaning in an arbitrary state. -/

namespace Sys2Proof

open Machine

/-- Settles O37: each is the emission of its own variant. -/
theorem controlCompletes : Obligations.ControlCompletes :=
  fun _ => ⟨rfl, rfl, rfl, rfl, fun _ => rfl, fun _ => rfl⟩

/-- Settles O38: by the shape of the operands. -/
theorem waitBCompletes : Obligations.WaitBCompletes := by
  intro s o
  rcases o with _ | _ | _ | _ | _ | _ | _ | (_ | _ | _) <;> rfl

/-- Settles O39: each form is the emission of its operation. -/
theorem singleRegisterCompletes : Obligations.SingleRegisterCompletes :=
  fun _ _ _ => ⟨fun _ => rfl, fun _ => rfl⟩

/-- Settles O40: each is the emission of its own variant. -/
theorem bitIndexedCompletes : Obligations.BitIndexedCompletes :=
  fun _ _ _ => ⟨rfl, rfl, rfl⟩

/-- Settles O41: each is the emission of its own variant. -/
theorem bitRoutingCompletes : Obligations.BitRoutingCompletes :=
  fun _ _ _ => ⟨rfl, rfl, rfl, rfl⟩

/-- Settles O42: each is the emission of its own variant. -/
theorem immediateCompletes : Obligations.ImmediateCompletes :=
  fun _ _ => ⟨fun _ => rfl, rfl, rfl⟩

/-- Settles O43: by the width of the label. -/
theorem controlTransferCompletes : Obligations.ControlTransferCompletes := by
  intro s l
  cases l <;> exact ⟨rfl, rfl, rfl, rfl⟩

/-- Settles O44: the catch-all is the emission of the verdict. -/
theorem catchAllDrivesNoMatch : Obligations.CatchAllDrivesNoMatch :=
  fun _ _ => rfl

/-- Settles O45: MOVL's meaning is the refusal. -/
theorem movlIsRefused : Obligations.MovlIsRefused :=
  fun _ => rfl

/-- Settles O46: a meaning that answers is an emission, of an instruction or of the verdict, and both have this frame. -/
theorem meaningsChangeOnlyTheOutput : Obligations.MeaningsChangeOnlyTheOutput := by
  intro i s t h
  obtain ⟨_, _, _, rfl⟩ | ⟨_, _, rfl⟩ := exec_eq_next h <;>
    exact ⟨rfl, rfl, rfl, rfl, rfl, rfl, rfl, rfl, rfl, rfl, rfl, rfl, rfl, rfl, rfl⟩

/-- The operand signals of a shape that does not drive them are 0 (R22). -/
theorem operandSignals_columns (o : Operands) : let q := operandSignals o
    q.noMatch = 0
    ∧ (q.f8 ≠ 0 → o.format = .sreg8 ∨ o.format = .sreg9 ∨ o.format = .bitidx)
    ∧ (q.f9 ≠ 0 → o.format = .sreg9) ∧ (q.form9 ≠ 0 → o.format = .sreg9)
    ∧ (q.dest ≠ 0 → o.format = .sreg8 ∨ o.format = .sreg9) ∧ (q.bit3 ≠ 0 → o.format = .bitidx)
    ∧ (q.sel2 ≠ 0 → o.format = .route) ∧ (q.idx3 ≠ 0 → o.format = .route) ∧ (q.imm8 ≠ 0 → o.format = .imm8)
    ∧ (q.label ≠ 0 → ∃ n, o.format = .label n) ∧ (q.labelW ≠ 0 → ∃ n, o.format = .label n)
    ∧ (q.k2 ≠ 0 → o.format = .sleep2) := by
  cases o <;> simp [operandSignals, Operands.format]

/-- Settles O47: an emission drives the operand signals of its shape beside the tag, and the verdict no operand signal. -/
theorem signalsOutsideTheirColumnAreZero : Obligations.SignalsOutsideTheirColumnAreZero := by
  intro i s t h
  obtain ⟨v, _, _, rfl⟩ | ⟨w, rfl, rfl⟩ := exec_eq_next h
  · obtain ⟨hnoMatch, hcolumns⟩ := operandSignals_columns i.operands
    refine ⟨rfl, ?_, ?_, hcolumns⟩
    · simp [hnoMatch]
    · simp
  · simp

end Sys2Proof
end

section
/-! Steps, streams and runs (spec/20_memory.md). -/

namespace Sys2Proof

/-! The front end's words. -/

theorem words_append_of_even {bytes : List Byte} (b : Byte) (h : bytes.length % 2 = 0) :
    words (bytes ++ [b]) = words bytes := by
  induction bytes using words.induct with
  | case1 lo hi rest ih =>
    have hrest : rest.length % 2 = 0 := by
      simp only [List.length_cons] at h
      omega
    simp only [List.cons_append, words, ih hrest]
  | case2 => cases h
  | case3 => rfl

theorem oddFlag_iff {bytes : List Byte} : oddFlag bytes = true ↔ bytes.length % 2 = 1 :=
  beq_iff_eq

/-- Settles O36: the words come in pairs of bytes, and an odd last byte makes no pair. -/
theorem wordCountAndOddFlag : Obligations.WordCountAndOddFlag := by
  intro bytes
  refine ⟨Machine.words_length bytes, oddFlag_iff, fun b h => ⟨words_append_of_even b h, oddFlag_iff.mpr ?_⟩⟩
  rw [List.length_append, List.length_singleton]
  omega

/-- The two bytes that a stream holds for a word are the word (R51). -/
theorem assemble_wordBytes (w : Word) : assemble (w.setWidth 8) ((w >>> 8).setWidth 8) = w := by
  rw [assemble_eq_or_shiftLeft]
  refine BitVec.eq_of_getLsbD_eq fun j hj => ?_
  rw [BitVec.getLsbD_or, setWidth_bit _ hj]
  by_cases h : j < 8
  · simp [h, hj, show ¬8 ≤ j by omega]
  · simp [hj, show 8 ≤ j by omega, show j - 8 < 8 by omega]

/-- What stands before a placed word: the stream up to its address, filled up with zero bytes (log entry 6). -/
def beforePlace (bytes : List Byte) (i : Nat) : List Byte :=
  (bytes ++ List.replicate (2 * i - bytes.length) 0).take (2 * i)

theorem putWord_eq (bytes : List Byte) (i : Nat) (w : Word) :
    putWord bytes i w = beforePlace bytes i ++ (wordBytes w ++ bytes.drop (2 * i + 2)) :=
  List.append_assoc _ _ _

theorem beforePlace_length (bytes : List Byte) (i : Nat) : (beforePlace bytes i).length = 2 * i := by
  simp only [beforePlace, List.length_take, List.length_append, List.length_replicate]
  omega

theorem putWord_getElem?_of_lt {bytes : List Byte} {i k : Nat} (w : Word) (hk : k < 2 * i) (hlen : k < bytes.length) :
    (putWord bytes i w)[k]? = bytes[k]? := by
  rw [putWord_eq, List.getElem?_append_left (by rw [beforePlace_length]; exact hk), beforePlace,
    List.getElem?_take_of_lt hk, List.getElem?_append_left hlen]

theorem wordAt_putWord_same (bytes : List Byte) (i : Nat) (w : Word) : wordAt (putWord bytes i w) i = some w := by
  have hlength := beforePlace_length bytes i
  rw [Machine.wordAt_eq_some_iff, putWord_eq]
  refine ⟨_, _, ?_, ?_, (assemble_wordBytes w).symm⟩
  · rw [List.getElem?_append_right (by omega), hlength, Nat.sub_self]
    rfl
  · rw [List.getElem?_append_right (by omega), hlength, Nat.add_sub_cancel_left]
    rfl

theorem wordAt_putWord_of_lt {bytes : List Byte} {i j : Nat} (w : Word) (hj : j < i) (hlen : j < bytes.length / 2) :
    wordAt (putWord bytes i w) j = wordAt bytes j := by
  rw [wordAt, putWord_getElem?_of_lt w (by omega) (by omega), putWord_getElem?_of_lt w (by omega) (by omega), wordAt]

open Machine

/-- Settles O59: the word is placed at the run's place, after as many bytes as stand before it. -/
theorem placedWordIsFetchedNext : Obligations.PlacedWordIsFetchedNext := by
  intro s w
  have hword : BitVec.ofNat 16 (w % 2 ^ 16) = BitVec.ofNat 16 w :=
    BitVec.eq_of_toNat_eq (by simp only [BitVec.toNat_ofNat, Nat.mod_mod])
  refine ⟨rfl, ?_, fun j hj hlen => wordAt_putWord_of_lt _ hj hlen⟩
  rw [← hword]
  exact wordAt_putWord_same s.stream s.nextWord _

/-! One step. -/

theorem wordAt_of_bytes {bytes : List Byte} {i : Nat} {lo hi : Byte} (hlo : bytes[2 * i]? = some lo)
    (hhi : bytes[2 * i + 1]? = some hi) : wordAt bytes i = some (hi ++ lo) :=
  wordAt_eq_some_iff.mpr ⟨lo, hi, hlo, hhi, rfl⟩

theorem wordAt_eq_none_of_byte {bytes : List Byte} {i : Nat} (h : bytes[2 * i + 1]? = none) : wordAt bytes i = none := by
  rw [Option.eq_none_iff_forall_ne_some]
  intro w hw
  obtain ⟨_, _, _, hhi, _⟩ := wordAt_eq_some_iff.mp hw
  cases h.symm.trans hhi

theorem instructionOf_of_decode {s : State} {w : Word} {i : Instr} (h : decode s.cfg.params w = .ok i) :
    s.instructionOf w = i := by
  rw [State.instructionOf, h]
  rfl

/-- Settles O48: the step's activity is the word, and the instruction that runs for it is the decoded one. -/
theorem stepRunsTheDecodedInstruction : Obligations.StepRunsTheDecodedInstruction := by
  intro s t i
  constructor
  · intro lo hi hinputs hlo hhi hdecode hexec
    have hrun : exec i (s.presentWord (hi ++ lo)) = .next t := hexec
    rw [step_of_activity_streamWord (activity_of_word hinputs (wordAt_of_bytes hlo hhi)), instructionOf_of_decode hdecode, hrun]
    rfl
  · intro w rest hi hdecode
    rw [step_of_activity_portWord (activity_of_input hi)]
    exact congrArg (exec · _) (instructionOf_of_decode hdecode)

/-- Settles O49: the step drives the word's decode, which is the verdict (O2). -/
theorem unmatchedWordDoesNotStop : Obligations.UnmatchedWordDoesNotStop := by
  intro s
  have verdict : ∀ w : Word, (∀ r ∈ s.cfg.params.rules, w &&& r.mask ≠ r.expected) →
      decode s.cfg.params w = .noMatch w :=
    fun w h => (noMatchExactlyWhereNoRowMatches s.cfg w w).mpr ⟨rfl, h⟩
  constructor
  · intro lo hi hinputs hlo hhi hnone
    rw [step_of_streamWord hinputs (wordAt_of_bytes hlo hhi)]
    simp only [State.drive, State.record, verdict _ hnone, flatPorts]
  · intro w rest hi hnone
    rw [step_of_word hi]
    simp only [State.drive, verdict _ hnone, flatPorts]

/-- Settles O50: the step presents the input to its port. -/
theorem otherInputsAreAnswered : Obligations.OtherInputsAreAnswered := by
  intro s rest
  refine ⟨fun a hi => step_of_code hi, fun x hi hx => step_of_identity hi (Params.hasIdentity_iff.mpr hx),
    fun n hi => step_of_name hi, fun bytes hi => ?_⟩
  rw [step_of_stream hi, State.presentStream, State.runsToResume_eq]
  rfl

/-- Settles O51: with nothing pending and no word left, a step can only take up a suspended run. -/
theorem idleStepChangesNothing : Obligations.IdleStepChangesNothing := by
  intro s hi hend
  have hnone := wordAt_eq_none_of_byte hend
  exact ⟨step_of_idle hi hnone, fun r rest hs => step_of_ended_run hi hnone hs⟩

/-- Settles O58: a result is a decode, and no decode is the catch-all (O3), so only the verdict is listed as one. -/
theorem listingHoldsUnknownForNoMatch : Obligations.ListingHoldsUnknownForNoMatch := by
  intro s i w hrun
  obtain ⟨_, hresults, _⟩ := hrun
  have hdecoded : ∀ out, s.results[i]? = some out → ∃ v, out = decode s.cfg.params v := by
    intro out h
    have hmem := List.mem_of_getElem? h
    rw [show s.results = _ from hresults] at hmem
    obtain ⟨v, _, rfl⟩ := List.mem_map.mp hmem
    exact ⟨v, rfl⟩
  rw [State.listing, List.getElem?_map, Option.map_eq_some_iff]
  constructor
  · rintro ⟨out, hout, hlisted⟩
    obtain ⟨v, rfl⟩ := hdecoded out hout
    rw [hout]
    cases hv : decode s.cfg.params v with
    | ok j =>
      rw [hv] at hlisted
      cases hlisted
      exact absurd hv (decoderNeverEmitsUnknownOrMovl s.cfg v w).1
    | noMatch u =>
      rw [hv] at hlisted
      cases hlisted
      rfl
  · intro h
    exact ⟨_, h, rfl⟩

/-! A run. -/

theorem core_run_succ {M : Host.Core} {s t : M.State} (n : Nat) (h : M.step s = .next t) :
    M.run (n + 1) s = M.run n t := by
  rw [Host.Core.run, h]

theorem core_run_add {M : Host.Core} {s t : M.State} {m : Nat} (n : Nat) (h : M.run m s = .next t) :
    M.run (m + n) s = M.run n t := by
  induction m generalizing s with
  | zero =>
    cases h
    rw [Nat.zero_add]
  | succ m ih =>
    rw [Nat.add_right_comm]
    cases hstep : M.step s with
    | next u =>
      rw [core_run_succ _ hstep] at h ⊢
      exact ih h
    | fault r => simp [Host.Core.run, hstep] at h
    | refused r => simp [Host.Core.run, hstep] at h

/-- The interface's run of the machine, over the model's own states. -/
def runSteps (n : Nat) (s : State) : Answer :=
  core.run n s

theorem runSteps_succ {s t : State} (n : Nat) (h : step s = .next t) : runSteps (n + 1) s = runSteps n t :=
  core_run_succ (M := core) n h

theorem runSteps_add {s t : State} {m : Nat} (n : Nat) (h : runSteps m s = .next t) :
    runSteps (m + n) s = runSteps n t :=
  core_run_add (M := core) n h

/-- A step over a lookup leaves the run and the suspended runs where they are. -/
theorem step_of_lookup {s : State} {x : Input} {rest : List Input} (hi : s.inputs = x :: rest)
    (hx : x.lookup s.cfg.params = true) : ∃ t, step s = .next t ∧ t.cfg = s.cfg ∧ t.inputs = rest
      ∧ t.currentRun = s.currentRun ∧ t.suspended = s.suspended := by
  cases x with
  | word w => exact ⟨_, step_of_word hi, rfl, rfl, rfl, rfl⟩
  | code a => exact ⟨_, step_of_code hi, rfl, rfl, rfl, rfl⟩
  | identity x => exact ⟨_, step_of_identity hi hx, rfl, rfl, rfl, rfl⟩
  | name n => exact ⟨_, step_of_name hi, rfl, rfl, rfl, rfl⟩
  | stream bytes => cases hx

/-- The host's lookups are all answered, one a step, before the run goes on. -/
theorem run_lookups {s : State} (h : ∀ x ∈ s.inputs, x.lookup s.cfg.params = true) :
    ∃ t, runSteps s.inputs.length s = .next t ∧ t.cfg = s.cfg ∧ t.inputs = [] ∧ t.currentRun = s.currentRun
      ∧ t.suspended = s.suspended := by
  generalize hi : s.inputs = inputs at h ⊢
  induction inputs generalizing s with
  | nil => exact ⟨s, rfl, rfl, hi, rfl, rfl⟩
  | cons x rest ih =>
    obtain ⟨u, hstep, hcfg, hinputs, hrun, hsuspended⟩ := step_of_lookup hi (h x (by simp))
    obtain ⟨t, ht, hcfg', hinputs', hrun', hsuspended'⟩ :=
      ih hinputs fun y hy => hcfg ▸ h y (List.mem_cons_of_mem x hy)
    exact ⟨t, (runSteps_succ _ hstep).trans ht, hcfg'.trans hcfg, hinputs', hrun'.trans hrun, hsuspended'.trans hsuspended⟩

/-- With no input pending a coherent run goes on to its end, one word a step, and stays coherent. -/
theorem run_to_end_coherent {s : State} (hi : s.inputs = []) (hrun : s.RunCoherent) :
    ∃ t, runSteps (s.stream.length / 2 - s.nextWord) s = .next t ∧ t.RunEnded ∧ t.RunCoherent ∧ t.cfg = s.cfg
      ∧ t.inputs = [] ∧ t.stream = s.stream ∧ t.suspended = s.suspended := by
  generalize hleft : s.stream.length / 2 - s.nextWord = left
  induction left generalizing s with
  | zero =>
    exact ⟨s, rfl, Nat.le_antisymm hrun.1 (Nat.sub_eq_zero_iff_le.mp hleft), hrun, rfl, hi, rfl, rfl⟩
  | succ left ih =>
    obtain ⟨w, hw⟩ := Option.isSome_iff_exists.mp (wordAt_isSome.mpr (show s.nextWord < s.stream.length / 2 by omega))
    obtain ⟨t, ht, hrest⟩ := ih (s := (s.drive w).record) hi (hrun.record_drive hw)
      (show s.stream.length / 2 - (s.nextWord + 1) = left by omega)
    exact ⟨t, (runSteps_succ _ (step_of_streamWord hi hw)).trans ht, hrest⟩

/-- An ended coherent run has decoded its whole stream. -/
theorem results_of_ended {s : State} (hrun : s.RunCoherent) (hend : s.RunEnded) :
    s.results = (words s.stream).map (decode s.cfg.params) := by
  obtain ⟨_, hresults, _⟩ := hrun
  have hall : (words s.stream).take s.nextWord = words s.stream :=
    List.take_of_length_le (by rw [words_length, ← hend])
  exact hresults.trans (congrArg _ hall)

theorem wordAt_of_ended {s : State} (hend : s.RunEnded) : wordAt s.stream s.nextWord = none := by
  rw [← Option.not_isSome_iff_eq_none, wordAt_isSome, ← hend]
  exact Nat.lt_irrefl _

/-- With no input pending a coherent run decodes its whole stream, and nothing else of the host changes. -/
theorem run_to_end {s : State} (hi : s.inputs = []) (hrun : s.RunCoherent) :
    ∃ t, runSteps (s.stream.length / 2 - s.nextWord) s = .next t
      ∧ t.results = (words s.stream).map (decode s.cfg.params) ∧ t.RunEnded ∧ t.odd = oddFlag s.stream ∧ t.cfg = s.cfg
      ∧ t.inputs = [] ∧ t.stream = s.stream ∧ t.suspended = s.suspended := by
  obtain ⟨t, ht, hend, htrun, hcfg, hinputs, hstream, hsuspended⟩ := run_to_end_coherent hi hrun
  have hresults := results_of_ended htrun hend
  have hodd : t.odd = oddFlag t.stream := htrun.2.2
  rw [hstream] at hresults hodd
  rw [hcfg] at hresults
  exact ⟨t, ht, hresults, hend, hodd, hcfg, hinputs, hstream, hsuspended⟩

/-- A stream presented over a run in progress is decoded first, and then that run is the current one again. -/
theorem run_resumed_after {s : State} {other : List Byte} (hplace : s.nextWord < s.stream.length / 2)
    (hi : s.inputs = [.stream other]) : ∃ v : State, runSteps (1 + other.length / 2 + 1) s
      = .next (v.resume s.currentRun s.suspended) ∧ v.cfg = s.cfg ∧ v.inputs = [] := by
  have hbegun := runSteps_succ 0 (step_of_stream hi)
  obtain ⟨v, hv, _, hend, _, hcfg, hinputs, _, hsuspended⟩ :=
    run_to_end (s := ({ s with inputs := [] } : State).presentStream other) rfl (State.RunCoherent.presentStream _ other)
  rw [State.presentStream_suspended, State.runsToResume_eq] at hsuspended
  have hresume := step_of_ended_run hinputs (wordAt_of_ended hend) (hsuspended.trans (if_pos hplace))
  exact ⟨v, (runSteps_add 1 ((runSteps_add _ hbegun).trans hv)).trans (runSteps_succ 0 hresume), hcfg, hinputs⟩

/-- Settles O57: a stream's own run begins coherent and goes to its end once the lookups are answered; and one that is
presented over a run leaves that run, as it was, to be taken up next. -/
theorem runDecodesTheWholeStream : Obligations.RunDecodesTheWholeStream := by
  constructor
  · intro s bytes h
    obtain ⟨u, hu, hcfg, hinputs, hsame, _⟩ := run_lookups (s := s.presentStream bytes) h
    have hstream : u.stream = bytes := congrArg Run.stream hsame
    have hplace : u.nextWord = 0 := congrArg Run.nextWord hsame
    have hurun : u.RunCoherent := by
      simp only [State.RunCoherent, hsame]
      exact State.RunCoherent.presentStream u bytes
    obtain ⟨t, ht, hresults, hend, hodd, hcfg', hinputs', hstream', _⟩ := run_to_end hinputs hurun
    rw [hstream, hplace] at ht
    rw [hstream] at hresults hodd hstream'
    rw [hcfg] at hresults hcfg'
    exact ⟨t, (runSteps_add _ hu).trans ht, hresults, hend, hodd, hcfg', hinputs', hstream'⟩
  · intro s other hrun hplace hi
    obtain ⟨v, hv, hvcfg, hvinputs⟩ := run_resumed_after hplace hi
    have hresumed : (v.resume s.currentRun s.suspended).RunCoherent := by
      rw [State.RunCoherent, State.resume_cfg, hvcfg]
      exact hrun
    obtain ⟨t, ht, hresults, hend, hodd, hcfg, hinputs, hstream, hsuspended⟩ :=
      run_to_end (s := v.resume s.currentRun s.suspended) hvinputs hresumed
    refine ⟨t, (runSteps_add _ hv).trans ht, ?_, hend, hodd.trans hrun.2.2.symm, hcfg.trans hvcfg, hinputs, hstream,
      hsuspended⟩
    rw [hresults, State.resume_cfg, hvcfg]
    rfl

end Sys2Proof
end
